-- ==== Sys2Proof/Word.lean ====
section
/-! DEFINITION. The word types of the block and the notation of `00_scope.md` R29 that is pure width arithmetic. -/
namespace Sys2Proof

/-- One byte: a register address, a channel code, a byte on the bus, an error code (R60, R72, R73). -/
abbrev Byte := BitVec 8

/-- A 16-bit value: `RAW`, the `D` field, a 16-bit register of the device (R11, R60). -/
abbrev Half := BitVec 16

/-- A 32-bit word: a command word (R60) and a response field (R68, `XLEN = 32`). -/
abbrev Word := BitVec 32

end Sys2Proof
end

