-- ==== Sys2Proof/Config.lean ====
section
/-! DEFINITION. The configuration constants of `00_scope.md` R7 and `10_state.md` R17. They are not state: no step changes
them (R8). -/
namespace Sys2Proof

/-- `BUS_ADDR7`, the device's address on the bus: OPEN, an argument of the model (R7, D16). No value can be proved of it. -/
opaque Config.busAddr7 : BitVec 7

/-- `RES_CODE`, the resolution setting, one of 0, 1, 2, 3: OPEN, an argument of the model (R7, D16). -/
opaque Config.resCode : BitVec 2

/-- `CH_ALL`, the source's "all channels" (R65, D5). -/
def Config.chAll : Byte := 0x00

/-- `CH_AMBIENT`, the source's "ambient temperature"; differs from `CH_ALL` (R65, D5). -/
def Config.chAmbient : Byte := 0x01

/-- `RESOLUTION_REGISTER`, the device register `INIT` writes (R17, R35). -/
def Config.resolutionRegister : Byte := 0x08

/-- `AMBIENT_TEMP_REGISTER`, the device register `FETCH` reads (R17, R34). -/
def Config.ambientTempRegister : Byte := 0x05

/-- `CONFIGURATION_REGISTER`: "unused by this core"; no command reaches it on its own (R17, R33). -/
def Config.configurationRegister : Byte := 0x01

end Sys2Proof
end

