-- ==== Sys2Proof/Syntax.lean ====
section
/-! DEFINITION. The nine commands of the block (`00_scope.md` R3, `30_encoding.md` R62), one constructor per row of
spec/opcode_table.json. Operand widths are those of `30_encoding.md` R64, so an operand out of range is not a term. -/
namespace Sys2Proof

/-- A command with its operands. `temp` is the 16-bit two's-complement operand as it stands in `D` (R64). -/
inductive Instr where
  | init
  | fetch (ch : Byte)
  | get (ch : Byte)
  | rd16 (reg : Byte)
  | wr8 (reg : Byte) (val : Byte)
  | wr16 (reg : Byte) (val : Half)
  | dec (raw : Half)
  | enc (temp : Half)
  | topub (temp : Half)
  deriving DecidableEq, Repr

end Sys2Proof
end

