-- ==== Sys2Proof/WellFormed.lean ====
section
/-! DEFINITION. What is a well-formed command: as a word (the match and mask table of `30_encoding.md` R62, read row by
row) and as text (the operand ranges of `30_encoding.md` R75). A term of `Instr` is always well formed: its operand types
are the exact widths of R64. -/
namespace Sys2Proof

/-- One row of the opcode map: a word is the row's command when `CW AND mask = match` (R62). -/
structure OpcodeRow where
  mnemonic : String
  pattern  : Word
  mask     : Word
  deriving DecidableEq, Repr

/-- `CW AND mask = match` (R62). -/
def OpcodeRow.selects (r : OpcodeRow) (cw : Word) : Bool := cw &&& r.mask == r.pattern

/-- The nine rows of R62, as spec/opcode_table.json has them. -/
def opcodeRows : List OpcodeRow :=
  [ ⟨"INIT",  0x00000000, 0xFFFFFFFF⟩
  , ⟨"FETCH", 0x10000000, 0xFF00FFFF⟩
  , ⟨"GET",   0x20000000, 0xFF00FFFF⟩
  , ⟨"RD16",  0x30000000, 0xFF00FFFF⟩
  , ⟨"WR8",   0x40000000, 0xFF00FF00⟩
  , ⟨"WR16",  0x50000000, 0xFF000000⟩
  , ⟨"DEC",   0x60000000, 0xFFFF0000⟩
  , ⟨"ENC",   0x70000000, 0xFFFF0000⟩
  , ⟨"TOPUB", 0x80000000, 0xFFFF0000⟩ ]

/-- The mnemonic of a command (R3). -/
def Instr.mnemonic : Instr → String
  | .init => "INIT"
  | .fetch _ => "FETCH"
  | .get _ => "GET"
  | .rd16 _ => "RD16"
  | .wr8 _ _ => "WR8"
  | .wr16 _ _ => "WR16"
  | .dec _ => "DEC"
  | .enc _ => "ENC"
  | .topub _ => "TOPUB"

/-- A word is a command, not reserved, when some row selects it (R62, R66). -/
def wordWellFormed (cw : Word) : Bool := opcodeRows.any (·.selects cw)

/-- One line of the textual syntax with its numbers as read (R75), and the pseudo-command `SAMPLE` (R76). -/
inductive Asm where
  | init
  | fetch (ch : Nat)
  | get (ch : Nat)
  | rd16 (reg : Nat)
  | wr8 (reg : Nat) (val : Nat)
  | wr16 (reg : Nat) (val : Nat)
  | dec (raw : Nat)
  | enc (temp : Int)
  | topub (temp : Int)
  | sample
  deriving DecidableEq, Repr

/-- The operand ranges of R75: "An operand out of its range has no encoding and is an assembly error." -/
def Asm.wellFormed : Asm → Bool
  | .init | .sample => true
  | .fetch ch | .get ch => ch < 256
  | .rd16 reg => reg < 256
  | .wr8 reg val => reg < 256 && val < 256
  | .wr16 reg val => reg < 256 && val < 65536
  | .dec raw => raw < 65536
  | .enc temp | .topub temp => -32768 ≤ temp && temp ≤ 32767

end Sys2Proof
end

