-- ==== Sys2Proof/Decode.lean ====
section
/-! DEFINITION. The decoder of command words, total on any 32 bits and naming why a word is reserved (`30_encoding.md` R60 to
R67), and after it the encoder (R77). -/
namespace Sys2Proof

/-- A must-be-zero field of a command word (R63). -/
inductive ZeroField where
  | z | a | d | dHigh
  deriving DecidableEq, Repr

/-- Why a command word is reserved (R66). -/
inductive Reserved where
  /-- `OP` is `0x9` to `0xF`. -/
  | opcode (op : BitVec 4)
  /-- A must-be-zero bit of this field is set. -/
  | field (f : ZeroField)
  deriving DecidableEq, Repr

/-- What a decoder answers for a word: "one of the nine commands with its operands, or 'reserved'" (R66). -/
inductive Decoded where
  | command (i : Instr)
  | reserved (why : Reserved)
  deriving DecidableEq, Repr

/-- `CW[31:28]` (R60). -/
def opField (cw : Word) : BitVec 4 := cw.extractLsb' 28 4

/-- `CW[27:24]` (R60). -/
def zField (cw : Word) : BitVec 4 := cw.extractLsb' 24 4

/-- `CW[23:16]` (R60). -/
def aField (cw : Word) : Byte := cw.extractLsb' 16 8

/-- `CW[15:0]` (R60). -/
def dField (cw : Word) : Half := cw.extractLsb' 0 16

/-- `D[15:8]`. -/
def highByte (d : Half) : Byte := d.extractLsb' 8 8

/-- `D[7:0]`. -/
def lowByte (d : Half) : Byte := d.extractLsb' 0 8

/-- Go on when the must-be-zero field is zero; otherwise the word is reserved because of it (R63). -/
def needZero {n : Nat} (v : BitVec n) (f : ZeroField) (k : Decoded) : Decoded :=
  if v = 0 then k else .reserved (.field f)

/-- The decoder: "reads `OP` and then checks the must-be-zero bits" (R61, R62, R63). -/
def decode (cw : Word) : Decoded :=
  let op := opField cw
  let a := aField cw
  let d := dField cw
  if op = 0x0 then needZero (zField cw) .z (needZero a .a (needZero d .d (.command .init)))
  else if op = 0x1 then needZero (zField cw) .z (needZero d .d (.command (.fetch a)))
  else if op = 0x2 then needZero (zField cw) .z (needZero d .d (.command (.get a)))
  else if op = 0x3 then needZero (zField cw) .z (needZero d .d (.command (.rd16 a)))
  else if op = 0x4 then needZero (zField cw) .z (needZero (highByte d) .dHigh (.command (.wr8 a (lowByte d))))
  else if op = 0x5 then needZero (zField cw) .z (.command (.wr16 a d))
  else if op = 0x6 then needZero (zField cw) .z (needZero a .a (.command (.dec d)))
  else if op = 0x7 then needZero (zField cw) .z (needZero a .a (.command (.enc d)))
  else if op = 0x8 then needZero (zField cw) .z (needZero a .a (.command (.topub d)))
  else .reserved (.opcode op)

/-- `{OP, 0b0000, A, D}` (R77). -/
def packWord (op : BitVec 4) (a : Byte) (d : Half) : Word := op ++ 0#4 ++ a ++ d

/-- The command word of a command (R77, with `A` and `D` filled as R64 says). -/
def encode : Instr → Word
  | .init => packWord 0x0 0 0
  | .fetch ch => packWord 0x1 ch 0
  | .get ch => packWord 0x2 ch 0
  | .rd16 reg => packWord 0x3 reg 0
  | .wr8 reg val => packWord 0x4 reg (0#8 ++ val)
  | .wr16 reg val => packWord 0x5 reg val
  | .dec raw => packWord 0x6 0 raw
  | .enc temp => packWord 0x7 0 temp
  | .topub temp => packWord 0x8 0 temp

/-- The command the decoder reads from an opcode-table word of `nbits` bits, the bits above `nbits` zero. -/
def decodeTableWord (nbits w : Nat) : Option Instr :=
  if nbits ≤ 32 then
    match decode (BitVec.ofNat 32 (w % 2 ^ nbits)) with
    | .command i => some i
    | .reserved _ => none
  else none

end Sys2Proof
end

