-- ==== Sys2Proof/Machine/State.lean ====
section
/-! DEFINITION. The block's state as plain data (`10_state.md` R10), the records of its ports (`30_encoding.md` R68 to R74),
the reasons a step can stop, and the state after reset (`10_state.md` R22). -/
namespace Sys2Proof.Machine

/-- The driver state `DRV`: two values and no others (R21). -/
inductive Drv where
  | uninit
  | initialized
  deriving DecidableEq, Repr

/-- The sequencer `PHASE`: `IDLE`, or `WAIT(c)` with `c` the accepted command word whose bus request is outstanding (R15). -/
inductive Phase where
  | idle
  | wait (c : Word)
  deriving DecidableEq, Repr

/-- `KIND` of a bus request (R72): the plain write or the combined write-then-read (R37). -/
inductive BusKind where
  | write
  | writeRead
  deriving DecidableEq, Repr

/-- A bus request (R72). `WLEN` is the length of `wbytes`, `W0` its first byte; bytes past `WLEN` are absent, not chosen. -/
structure BusRequest where
  kind   : BusKind
  addr7  : BitVec 7
  wbytes : List Byte
  rlen   : BitVec 2
  deriving DecidableEq, Repr

/-- The bus answer record as it stands on the answer port (R73): `OKF`, `B0`, `B1`, `ERR`. -/
structure BusAnswer where
  okf : Bool
  b0  : Byte
  b1  : Byte
  err : Byte
  deriving DecidableEq, Repr

/-- What an answer means for the request it answers (R19, R40): the fields that are "meaningful" and no others (R73). -/
inductive BusResult where
  /-- `Ok`: a plain write succeeded. -/
  | ok
  /-- `Ok([b0, b1])`: a combined write-then-read succeeded, `b0` received first. -/
  | okRead (b0 b1 : Byte)
  /-- `Fail(e)`. -/
  | fail (e : Byte)
  deriving DecidableEq, Repr

/-- One entry of the bus history: a request with the answer it got, or none yet (R18). -/
structure HistEntry where
  request : BusRequest
  answer  : Option BusResult
  deriving DecidableEq, Repr

/-- `STATUS` of a response (R70); its 4-bit codes are `Status.code`. -/
inductive Status where
  | ok
  | deviceNotReady
  | initializationFailed
  | unsupportedChannel
  | fetchFailed
  | transportError
  deriving DecidableEq, Repr

/-- The response record (R68). A field that is not valid for the command and status is absent (R69, D8). -/
structure Response where
  status : Status
  r0     : Option Word
  r1     : Option Word
  deriving DecidableEq, Repr

/-- The input ports of R74 as sampled in one slot (R19): `rst`; `cmd_valid` and `cmd_word` (`none` is `cmd_valid = 0`);
`bus_ready`; `brsp_valid` and the answer record (`none` is `brsp_valid = 0`). -/
structure Inputs where
  rst      : Bool
  cmd      : Option Word
  busReady : Bool
  answer   : Option BusAnswer
  deriving DecidableEq, Repr

/-- A slot in which nothing is driven. DESIGN CHOICE (log 2): what the inputs are once the listed slots are used up. -/
def Inputs.quiet : Inputs := { rst := false, cmd := none, busReady := false, answer := none }

/-- The reasons a step of the block could fault. There are none: every error of the block is the status of a response, and
the run goes on (R140, R146, R149; log 18). No constructor, so no step faults. -/
inductive Fault where
  deriving DecidableEq, Repr

/-- The reasons a step is refused: the spec gives the block no meaning there. -/
inductive Refusal where
  /-- Raised by an arm of `exec` without a meaning; none is left. Safe: the run stops. -/
  | notModelled (mnemonic : String)
  /-- Raised by `step` on a reserved command word: "the spec gives it no meaning, and a model refuses it" (R66, U3). Safe. -/
  | reservedWord (why : Reserved)
  /-- Raised by `INIT` while `DRV = INITIALIZED`: "not admitted: unspecified, model refuses" (R128, U2). Safe. -/
  | initWhenInitialized
  /-- Raised by `FETCH` while `DRV = UNINIT`: "not admitted: unspecified, model refuses" (R128, U1). Safe. -/
  | fetchWhenUninit
  /-- Raised by `GET` while `DRV = UNINIT`: "not admitted: unspecified, model refuses" (R128, U1). Safe. -/
  | getWhenUninit
  deriving DecidableEq, Repr

/-- The state of a run: the block's state (`drv`, `raw`, `phase`, R10), the recorded bus history (`hist`, R18), the ports in
the present slot (`pin` inputs, `rsp` and `breq` outputs, R74), and the input slots still to come (`inputs`, log 1). -/
structure State where
  drv    : Drv
  raw    : Half
  phase  : Phase
  hist   : List HistEntry
  pin    : Inputs
  rsp    : Option Response
  breq   : Option BusRequest
  inputs : List Inputs
  deriving DecidableEq, Repr

/-- The machine right after reset (R22): `RAW = 0x0000`, `DRV = UNINIT`, `PHASE = IDLE`, `HIST` empty; nothing stands on the
ports and no input is listed (log 8). -/
def State.reset : State where
  drv    := .uninit
  raw    := 0x0000
  phase  := .idle
  hist   := []
  pin    := Inputs.quiet
  rsp    := none
  breq   := none
  inputs := []

end Sys2Proof.Machine
end

