-- ==== Sys2Proof/Machine/Operands.lean ====
section
/-! DEFINITION. How operands are read and results are formed: widths and extensions (`00_scope.md` R29, `30_encoding.md` R64),
byte order on the bus (`20_memory.md` R42, R43), and which channels are supported (`30_encoding.md` R65). -/
namespace Sys2Proof.Machine

/-- `signed(D)`, the operand `temp` of `ENC` and `TOPUB`: two's complement, sign at `D[15]` (R64). -/
def signedOperand (d : Half) : Int := d.toInt

/-- `tc_32(z)`: the 32-bit pattern of an integer (R29, R112). -/
def tc32 (z : Int) : Word := BitVec.ofInt 32 z

/-- `zext_32(v)` (R29). -/
def zext32 {n : Nat} (v : BitVec n) : Word := v.setWidth 32

/-- `{b0, b1}`: the 16-bit value of two received bytes, `b0` received first (R42). -/
def fromBigEndian (b0 b1 : Byte) : Half := b0 ++ b1

/-- `be_bytes(v, 2) = [v[15:8], v[7:0]]` (R29, R43). -/
def toBigEndian (v : Half) : List Byte := [highByte v, lowByte v]

/-- The channels `FETCH` supports: "either 'all channels' or 'ambient temperature'" (R123). -/
def fetchSupports (ch : Byte) : Bool := ch == Config.chAll || ch == Config.chAmbient

/-- The channel `GET` supports: "'ambient temperature'" and nothing else (R126). -/
def getSupports (ch : Byte) : Bool := ch == Config.chAmbient

/-- `zext_8(RES_CODE)`: the byte `INIT` writes, the code in bits 1:0 and bits 7:2 zero (R35). -/
def resolutionByte : Byte := Config.resCode.setWidth 8

end Sys2Proof.Machine
end

