-- ==== Sys2Proof/Machine/Flags.lean ====
section
/-! DEFINITION. The block has no flags or condition codes (`10_state.md` R16): no command computes one. What the spec gives
instead is the status of a response (`30_encoding.md` R70) and the fields of `RAW`, whose top three bits are the device's
status flags, stored and never interpreted (`10_state.md` R11). -/
namespace Sys2Proof.Machine

/-- The 4-bit `STATUS` codes (R70); `0x6` to `0xF` are never produced. -/
def Status.code : Status → BitVec 4
  | .ok => 0x0
  | .deviceNotReady => 0x1
  | .initializationFailed => 0x2
  | .unsupportedChannel => 0x3
  | .fetchFailed => 0x4
  | .transportError => 0x5

/-- `MAG`, bits 11:0 of a raw value (R11). -/
def magField (raw : Half) : BitVec 12 := raw.extractLsb' 0 12

/-- `SIGN`, bit 12 of a raw value (R11). -/
def signField (raw : Half) : Bool := raw.getLsbD 12

/-- `FLAGS`, bits 15:13 of a raw value: "status flags (ignored)" (R11). No meaning reads it. -/
def flagsField (raw : Half) : BitVec 3 := raw.extractLsb' 13 3

/-- The 1-bit encoding of `DRV` (R10, D25). -/
def Drv.code : Drv → BitVec 1
  | .uninit => 0
  | .initialized => 1

/-- `KIND` as its bit (R72). -/
def BusKind.code : BusKind → BitVec 1
  | .write => 0
  | .writeRead => 1

/-- `WLEN` of a request (R72). -/
def BusRequest.wlen (r : BusRequest) : BitVec 2 := BitVec.ofNat 2 r.wbytes.length

end Sys2Proof.Machine
end

