-- ==== Sys2Proof/Machine/Ops.lean ====
section
/-! DEFINITION. The operations the nine meanings share: the two bus requests (`20_memory.md` R38, R39), issuing one
(`10_state.md` R15), completing a command with a response or an error (`60_exceptions.md` R146), and the two shapes of a
command: one that completes as it is accepted, and one that waits for the bus (`10_state.md` R15). -/
namespace Sys2Proof.Machine

/-- What a meaning answers. -/
abbrev Result := Host.Outcome State Fault Refusal

/-- `MemRead(reg, 2)`, that is `BusWriteRead(BUS_ADDR7, [reg], 2)` (R38). -/
def readRequest (reg : Byte) : BusRequest :=
  { kind := .writeRead, addr7 := Config.busAddr7, wbytes := [reg], rlen := 2 }

/-- `MemWrite(reg, 1, v)`, that is `BusWrite(BUS_ADDR7, [reg, v])` (R39). -/
def write8Request (reg val : Byte) : BusRequest :=
  { kind := .write, addr7 := Config.busAddr7, wbytes := [reg, val], rlen := 0 }

/-- `MemWrite(reg, 2, v)`, that is `BusWrite(BUS_ADDR7, [reg, v[15:8], v[7:0]])` (R39). -/
def write16Request (reg : Byte) (val : Half) : BusRequest :=
  { kind := .write, addr7 := Config.busAddr7, wbytes := reg :: toBigEndian val, rlen := 0 }

/-- Issue the command's one bus request: it goes out on the port and into `HIST`, and `PHASE <- WAIT(c)` (R15, R18). -/
def State.issue (s : State) (c : Word) (q : BusRequest) : State :=
  { s with phase := .wait c, hist := s.hist ++ [{ request := q, answer := none }], breq := some q }

/-- Give the newest request of a history its answer (R18). -/
def answerLast (r : BusResult) : List HistEntry → List HistEntry
  | [] => []
  | [e] => [{ e with answer := some r }]
  | e :: f :: es => e :: answerLast r (f :: es)

/-- Record the answer of the outstanding request (R18). -/
def State.recordAnswer (s : State) (r : BusResult) : State :=
  { s with hist := answerLast r s.hist }

/-- `respond Ok(r0, r1)`: complete the current command with `STATUS = OK`; `PHASE` is `IDLE` after it (R29, R68, R15). -/
def State.respondOk (s : State) (r0 r1 : Option Word) : State :=
  { s with phase := .idle, rsp := some { status := .ok, r0 := r0, r1 := r1 } }

/-- `raise <Error>(info)`: the entry of an error, shared by every command. It completes the current command with the error's
status, sets `PHASE <- IDLE` and changes nothing else; no state is saved and control goes nowhere (R29, R146). There is no
return operation beside it: "There is no return command and nothing to restore" (R147). -/
def State.raise (s : State) (e : Status) (info : Option Word) : State :=
  { s with phase := .idle, rsp := some { status := e, r0 := info, r1 := none } }

/-- A command that needs no bus transaction: it completes in the step that accepts it. In `WAIT` no command is accepted and
it waits at the port (R15, D14; log 9). -/
def localCommand (accept : State → Result) (s : State) : Result :=
  match s.phase with
  | .idle => accept s
  | .wait _ => .next s

/-- A command that may need the bus. In `IDLE` it is accepted. In `WAIT(c)` with its own word it is the command in flight: the
bus answer completes it, and without an answer nothing happens (R15, R160). An answer carries no tag, and any answer on the port
in `WAIT(c)` is taken as the answer to `c`, a late one to a request that a reset abandoned included: DESIGN CHOICE, unsafe
(log 23), since R171 settles a late answer for `PHASE = IDLE` only. In `WAIT` of another command it is not accepted
and waits at the port (R15, D14; log 9). -/
def busCommand (i : Instr) (accept : State → Result) (onAnswer : BusAnswer → State → State) (s : State) : Result :=
  match s.phase with
  | .idle => accept s
  | .wait c =>
    if c = encode i then
      match s.pin.answer with
      | none => .next s
      | some a => .next (onAnswer a s)
    else .next s

/-- Completion of a read: `Ok([b0, b1])` gives the 16-bit value, most significant byte first (R42); `Fail(e)` gives `e`. -/
def onReadAnswer (onOk : Half → State → State) (onFail : Byte → State → State) (a : BusAnswer) (s : State) : State :=
  if a.okf then onOk (fromBigEndian a.b0 a.b1) (s.recordAnswer (.okRead a.b0 a.b1))
  else onFail a.err (s.recordAnswer (.fail a.err))

/-- Completion of a write: `Ok` carries nothing (R40); `Fail(e)` gives `e`. -/
def onWriteAnswer (onOk : State → State) (onFail : Byte → State → State) (a : BusAnswer) (s : State) : State :=
  if a.okf then onOk (s.recordAnswer .ok)
  else onFail a.err (s.recordAnswer (.fail a.err))

/-- How the transport commands report a failed transaction: `TRANSPORT_ERROR` with `R0 = zext_32(e)`, the code "propagated
unchanged, not interpreted" (R90, R145). -/
def raiseTransportError (e : Byte) (s : State) : State := s.raise .transportError (some (zext32 e))

/-- `cmd_ready`: 1 exactly when `PHASE = IDLE` (R74), and 0 while `rst = 1` (R170). -/
def State.cmdReady (s : State) : Bool := s.phase == .idle && !s.pin.rst

/-- `rsp_valid` (R74). -/
def State.rspValid (s : State) : Bool := s.rsp.isSome

/-- `breq_valid` (R74). -/
def State.breqValid (s : State) : Bool := s.breq.isSome

end Sys2Proof.Machine
end

