-- ==== Sys2Proof/Machine/Codec.lean ====
section
/-! DEFINITION. The Temperature Codec: the pure functions `decode`, `encode`, `to_public` on mathematical integers and the
commands `DEC`, `ENC`, `TOPUB` (`41_codec.md`). They read and write no state but the response; they issue no bus request and
are admitted in both values of `DRV`. -/
namespace Sys2Proof.Machine

/-- `decode(raw)` in units of 1/16 °C (R100): mask the low 12 bits; with the sign bit set the value is
`-(1 + (magnitude XOR 0xFFF))`. Bits 15:13 are not read (R101). -/
def decodeRaw (raw : Half) : Int :=
  if signField raw then -(1 + ((magField raw ^^^ 0xFFF).toNat : Int))
  else ((magField raw).toNat : Int)

/-- `encode(temp)` (R103): `{0b000, sign, temp mod 4096}`. -/
def encodeTemp (temp : Int) : Half :=
  0#3 ++ BitVec.ofBool (decide (temp < 0)) ++ BitVec.ofNat 12 (temp % 4096).toNat

/-- `int_part` of `to_public(t)`: truncating toward zero (R106, R108). -/
def intPart (t : Int) : Int := t.tdiv 16

/-- `frac_millionths` of `to_public(t)`: the remainder times a million over sixteen (R106). -/
def fracMillionths (t : Int) : Int := ((t - intPart t * 16) * 1000000).tdiv 16

/-- `DEC raw` (R102). -/
def execDec (raw : Half) (s : State) : Result :=
  localCommand (fun s => .next (s.respondOk (some (tc32 (decodeRaw raw))) none)) s

/-- `ENC temp` (R104). -/
def execEnc (temp : Half) (s : State) : Result :=
  localCommand (fun s => .next (s.respondOk (some (zext32 (encodeTemp (signedOperand temp)))) none)) s

/-- The response of `to_public`: `R0 = tc_32(int_part)`, `R1 = tc_32(frac_millionths)` (R69). -/
def State.respondPublic (s : State) (t : Int) : State :=
  s.respondOk (some (tc32 (intPart t))) (some (tc32 (fracMillionths t)))

/-- `TOPUB temp` (R107). -/
def execTopub (temp : Half) (s : State) : Result :=
  localCommand (fun s => .next (s.respondPublic (signedOperand temp))) s

end Sys2Proof.Machine
end

