-- ==== Sys2Proof/Machine/Sensor.lean ====
section
/-! DEFINITION. The Sensor State commands `INIT`, `FETCH`, `GET` (`42_sensor_ops.md` R120 to R128). -/
namespace Sys2Proof.Machine

/-- Acceptance of `INIT` (R120, R121): admitted in `UNINIT` only; the readiness check comes first. -/
def acceptInit (s : State) : Result :=
  match s.drv with
  | .initialized => .refused .initWhenInitialized
  | .uninit =>
    if s.pin.busReady then
      .next (s.issue (encode .init) (write8Request Config.resolutionRegister resolutionByte))
    else .next (s.raise .deviceNotReady none)

/-- `INIT` (R120 to R122): a successful write makes `DRV` `INITIALIZED`; a failed one raises `INITIALIZATION_FAILED`, drops
`e` and leaves `DRV`. -/
def execInit (s : State) : Result :=
  busCommand .init acceptInit
    (onWriteAnswer (fun s => { s with drv := .initialized }.respondOk none none)
      (fun _ s => s.raise .initializationFailed none)) s

/-- Acceptance of `FETCH` (R123, R124): admitted in `INITIALIZED` only; the channel check comes first. -/
def acceptFetch (ch : Byte) (s : State) : Result :=
  match s.drv with
  | .uninit => .refused .fetchWhenUninit
  | .initialized =>
    if fetchSupports ch then
      .next (s.issue (encode (.fetch ch)) (readRequest Config.ambientTempRegister))
    else .next (s.raise .unsupportedChannel none)

/-- `FETCH ch` (R123 to R125): a successful read writes all 16 bits of `RAW` at once (R13); a failed one raises
`FETCH_FAILED`, drops `e` and leaves `RAW`. -/
def execFetch (ch : Byte) (s : State) : Result :=
  busCommand (.fetch ch) (acceptFetch ch)
    (onReadAnswer (fun v s => { s with raw := v }.respondOk none none)
      (fun _ s => s.raise .fetchFailed none)) s

/-- Acceptance of `GET` (R126, R127): admitted in `INITIALIZED` only; `to_public(decode(RAW))`, changing no state. -/
def acceptGet (ch : Byte) (s : State) : Result :=
  match s.drv with
  | .uninit => .refused .getWhenUninit
  | .initialized =>
    if getSupports ch then .next (s.respondPublic (decodeRaw s.raw))
    else .next (s.raise .unsupportedChannel none)

/-- `GET ch` (R126). -/
def execGet (ch : Byte) (s : State) : Result :=
  localCommand (acceptGet ch) s

end Sys2Proof.Machine
end

