-- ==== Sys2Proof/Machine/Transport.lean ====
section
/-! DEFINITION. The Register Transport commands `RD16`, `WR8`, `WR16` (`40_transport.md` R90 to R93). They read no state but
`PHASE`, are admitted in both values of `DRV`, and write no state but `PHASE`. -/
namespace Sys2Proof.Machine

/-- `RD16 reg` (R91). -/
def execRd16 (reg : Byte) (s : State) : Result :=
  busCommand (.rd16 reg)
    (fun s => .next (s.issue (encode (.rd16 reg)) (readRequest reg)))
    (onReadAnswer (fun v s => s.respondOk (some (zext32 v)) none) raiseTransportError) s

/-- `WR8 reg, val` (R92). -/
def execWr8 (reg val : Byte) (s : State) : Result :=
  busCommand (.wr8 reg val)
    (fun s => .next (s.issue (encode (.wr8 reg val)) (write8Request reg val)))
    (onWriteAnswer (fun s => s.respondOk none none) raiseTransportError) s

/-- `WR16 reg, val` (R93). -/
def execWr16 (reg : Byte) (val : Half) (s : State) : Result :=
  busCommand (.wr16 reg val)
    (fun s => .next (s.issue (encode (.wr16 reg val)) (write16Request reg val)))
    (onWriteAnswer (fun s => s.respondOk none none) raiseTransportError) s

end Sys2Proof.Machine
end

