-- ==== Sys2Proof/Machine/Dispatch.lean ====
section
/-! DEFINITION. One arm per command, each one call of its meaning. -/
namespace Sys2Proof.Machine

def exec (i : Instr) (s : State) : Host.Outcome State Fault Refusal :=
  match i with
  | .init => Sys2Proof.Machine.execInit s
  | .fetch ch => Sys2Proof.Machine.execFetch ch s
  | .get ch => Sys2Proof.Machine.execGet ch s
  | .rd16 reg => Sys2Proof.Machine.execRd16 reg s
  | .wr8 reg val => Sys2Proof.Machine.execWr8 reg val s
  | .wr16 reg val => Sys2Proof.Machine.execWr16 reg val s
  | .dec raw => Sys2Proof.Machine.execDec raw s
  | .enc temp => Sys2Proof.Machine.execEnc temp s
  | .topub temp => Sys2Proof.Machine.execTopub temp s

end Sys2Proof.Machine
end

