-- ==== Sys2Proof/Machine/Ports.lean ====
section
/-! DEFINITION. Sampling the input ports, reset, and taking the command word of the present slot (`30_encoding.md` R74,
`70_reset_and_hazards.md` R170, R171). This stands in the place of an instruction fetch (`10_state.md` R14). -/
namespace Sys2Proof.Machine

/-- The slot the environment drives next (log 1, log 2). -/
def nextSlot : List Inputs → Inputs
  | [] => Inputs.quiet
  | p :: _ => p

/-- Begin a slot: the input ports take the next listed values, and the outputs of the slot before are gone (a response and a
request are "presented once", R74). -/
def State.sample (s : State) : State :=
  { s with pin := nextSlot s.inputs, inputs := s.inputs.tail, rsp := none, breq := none }

/-- The effect of `rst = 1` (R170, R171): the block takes its reset state and `HIST` is emptied; a command in flight is
abandoned without a response. The environment's coming slots are not the block's and stay. -/
def State.applyReset (s : State) : State :=
  { State.reset with pin := s.pin, inputs := s.inputs }

/-- The command word a slot brings to the sequencer: in `IDLE` the word on the port, if any; in `WAIT(c)` the command in
flight, whatever stands on the port (R15). -/
def State.currentWord (s : State) : Option Word :=
  match s.phase with
  | .idle => s.pin.cmd
  | .wait c => some c

/-- A slot list whose first slot presents the word `cw` with `rst = 0`, the other ports of that slot as they were. -/
def presentWord (cw : Word) (ps : List Inputs) : List Inputs :=
  { nextSlot ps with rst := false, cmd := some cw } :: ps.tail

end Sys2Proof.Machine
end

