-- ==== Sys2Proof/Machine/Step.lean ====
section
/-! DEFINITION. One step of the machine is one slot: sample the ports; `rst` resets; otherwise the command on the port (in
`IDLE`) or the command in flight (in `WAIT(c)`) runs (`10_state.md` R15, `70_reset_and_hazards.md` R170). -/
namespace Sys2Proof.Machine

/-- Run the slot's command word, if there is one. -/
def runWord (s : State) : Option Word → Host.Outcome State Fault Refusal
  | none => .next s
  | some cw =>
    match decode cw with
    | .command i => exec i s
    | .reserved why => .refused (.reservedWord why)

/-- One step. -/
def step (s : State) : Host.Outcome State Fault Refusal :=
  let t := s.sample
  if t.pin.rst then .next t.applyReset else runWord t t.currentWord

/-- `s` with the command word `w` (of `nbits` bits, the bits above zero) presented in the next slot: the sequencer is `IDLE`,
so the word is accepted, and `rst` is 0 (log 6). -/
def State.withFetchWord (s : State) (nbits w : Nat) : State :=
  { s with phase := .idle, inputs := presentWord (BitVec.ofNat 32 (w % 2 ^ nbits)) s.inputs }

end Sys2Proof.Machine
end

