-- ==== Sys2Proof/Machine/Assembler.lean ====
section
/-! DEFINITION. The textual syntax of a command stream (`30_encoding.md` R75), its numbers, aliases and comments, the
pseudo-command `SAMPLE` (R76), and the words it stands for (R77). Nothing the block does depends on it. -/
namespace Sys2Proof.Machine

/-- White space inside a line (log 17). -/
def isBlank (c : Char) : Bool := c == ' ' || c == '\t' || c == '\r'

/-- "A `;` starts a comment" (R75). -/
def stripComment : List Char → List Char
  | [] => []
  | c :: cs => if c == ';' then [] else c :: stripComment cs

/-- A finished token, unless it is empty, before the tokens that follow. -/
def pushToken (cur : List Char) (rest : List (List Char)) : List (List Char) :=
  if cur.isEmpty then rest else cur.reverse :: rest

/-- Split a line into tokens; a comma is a token of its own. `cur` is the token begun, reversed. -/
def tokensFrom (cur : List Char) : List Char → List (List Char)
  | [] => pushToken cur []
  | c :: cs =>
    if isBlank c then pushToken cur (tokensFrom [] cs)
    else if c == ',' then pushToken cur ([','] :: tokensFrom [] cs)
    else tokensFrom (c :: cur) cs

/-- The value of a digit in a base of at most 16; both cases of a hexadecimal letter (log 17). -/
def digitValue (base : Nat) (c : Char) : Option Nat :=
  let n := c.toNat
  let v : Option Nat :=
    if 48 ≤ n && n ≤ 57 then some (n - 48)
    else if 65 ≤ n && n ≤ 70 then some (n - 55)
    else if 97 ≤ n && n ≤ 102 then some (n - 87)
    else none
  v.filter (· < base)

/-- Digits in a base, most significant first, onto the value read so far. -/
def digitsFrom (base acc : Nat) : List Char → Option Nat
  | [] => some acc
  | c :: cs =>
    match digitValue base c with
    | none => none
    | some v => digitsFrom base (acc * base + v) cs

/-- One or more digits in a base. -/
def numeral (base : Nat) (cs : List Char) : Option Nat :=
  if cs.isEmpty then none else digitsFrom base 0 cs

/-- "Numbers are decimal, or hexadecimal with `0x`" (R75). -/
def readNat : List Char → Option Nat
  | '0' :: 'x' :: ds => numeral 16 ds
  | ds => numeral 10 ds

/-- "a leading `-` is allowed only for `temp`" (R75). -/
def readInt : List Char → Option Int
  | '-' :: ds => (readNat ds).map (fun n => -(n : Int))
  | ds => (readNat ds).map (fun n => (n : Int))

/-- A channel operand: "`ch` is ALL, AMBIENT, or a number 0..255" (R75). -/
def readChannel (t : List Char) : Option Nat :=
  if t = "ALL".toList then some Config.chAll.toNat
  else if t = "AMBIENT".toList then some Config.chAmbient.toNat
  else readNat t

/-- A token that is a command's mnemonic or the source's function name for it (R75). -/
def isName (t : List Char) (mnemonic source : String) : Bool :=
  t == mnemonic.toList || t == source.toList

/-- A command with one operand. -/
def oneOperand {α : Type} (read : List Char → Option α) (k : α → Asm) : List (List Char) → Option Asm
  | [t] => (read t).map k
  | _ => none

/-- A command with two operands, a comma between them. -/
def twoOperands (k : Nat → Nat → Asm) : List (List Char) → Option Asm
  | [t, [','], u] =>
    match readNat t, readNat u with
    | some a, some b => some (k a b)
    | _, _ => none
  | _ => none

/-- A command without operands. -/
def noOperand (k : Asm) (ts : List (List Char)) : Option Asm := if ts.isEmpty then some k else none

/-- The command a line's tokens spell (R75, R76). -/
def readCommand (name : List Char) (ops : List (List Char)) : Option Asm :=
  if isName name "INIT" "initialize" then noOperand .init ops
  else if isName name "FETCH" "sample_fetch" then oneOperand readChannel .fetch ops
  else if isName name "GET" "channel_get" then oneOperand readChannel .get ops
  else if isName name "RD16" "read16" then oneOperand readNat .rd16 ops
  else if isName name "WR8" "write8" then twoOperands .wr8 ops
  else if isName name "WR16" "write16" then twoOperands .wr16 ops
  else if isName name "DEC" "decode" then oneOperand readNat .dec ops
  else if isName name "ENC" "encode" then oneOperand readInt .enc ops
  else if isName name "TOPUB" "to_public" then oneOperand readInt .topub ops
  else if name = "SAMPLE".toList then noOperand .sample ops
  else none

/-- What a textual line stands for in commands, when its operands are in range (R64, R75, R76): "An operand out of its range
has no encoding". `SAMPLE` is `FETCH AMBIENT` then `GET AMBIENT`. -/
def expandAsm (a : Asm) : Option (List Instr) :=
  if a.wellFormed then
    some (match a with
      | .init => [.init]
      | .fetch ch => [.fetch (BitVec.ofNat 8 ch)]
      | .get ch => [.get (BitVec.ofNat 8 ch)]
      | .rd16 reg => [.rd16 (BitVec.ofNat 8 reg)]
      | .wr8 reg val => [.wr8 (BitVec.ofNat 8 reg) (BitVec.ofNat 8 val)]
      | .wr16 reg val => [.wr16 (BitVec.ofNat 8 reg) (BitVec.ofNat 16 val)]
      | .dec raw => [.dec (BitVec.ofNat 16 raw)]
      | .enc temp => [.enc (BitVec.ofInt 16 temp)]
      | .topub temp => [.topub (BitVec.ofInt 16 temp)]
      | .sample => [.fetch Config.chAmbient, .get Config.chAmbient])
  else none

/-- The command words of one line: none for a blank or comment line, an error (`none`) for a line that spells no command. -/
def assembleLine (line : List Char) : Option (List Word) :=
  match tokensFrom [] (stripComment line) with
  | [] => some []
  | name :: ops =>
    match readCommand name ops with
    | none => none
    | some a => (expandAsm a).map (·.map encode)

/-- Split a text at its line ends. `cur` is the line begun, reversed. -/
def linesFrom (cur : List Char) : List Char → List (List Char)
  | [] => [cur.reverse]
  | c :: cs => if c == '\n' then cur.reverse :: linesFrom [] cs else linesFrom (c :: cur) cs

/-- The words of all lines, or an error if one line is an error. -/
def assembleLines : List (List Char) → Option (List Word)
  | [] => some []
  | l :: ls =>
    match assembleLine l, assembleLines ls with
    | some ws, some rest => some (ws ++ rest)
    | _, _ => none

/-- The command words of a command stream, "one command per line" (R75). -/
def assemble (text : String) : Option (List Word) := assembleLines (linesFrom [] text.toList)

/-- What a requester running `SAMPLE` presents after the response to its `FETCH`: "issues `GET` only if `FETCH` answered `OK`"
(R76). -/
def sampleNext (r : Response) : Option Instr :=
  if r.status = .ok then some (.get Config.chAmbient) else none

end Sys2Proof.Machine
end

