-- ==== Sys2Proof/Safety.lean ====
section
/-! DEFINITION. What a legal state and a legal run are, in the terms the statements use: the shape of the bus history
(`20_memory.md` R44, R50, `30_encoding.md` R72), its agreement with `PHASE` (`10_state.md` R15), which commands are admitted
(`42_sensor_ops.md` R128), and when a run is over (`10_state.md` R28). -/
namespace Sys2Proof.Machine

/-- The bus request a command issues, when it is one that issues a request (the table of R72). -/
def requestOf : Instr → Option BusRequest
  | .init => some (write8Request Config.resolutionRegister resolutionByte)
  | .fetch ch => if fetchSupports ch then some (readRequest Config.ambientTempRegister) else none
  | .rd16 reg => some (readRequest reg)
  | .wr8 reg val => some (write8Request reg val)
  | .wr16 reg val => some (write16Request reg val)
  | .get _ => none
  | .dec _ => none
  | .enc _ => none
  | .topub _ => none

/-- The three request forms and no others (R44, R72), always to `BUS_ADDR7` (R37). -/
def BusRequest.Legal (q : BusRequest) : Prop :=
  (∃ reg, q = readRequest reg) ∨ (∃ reg val, q = write8Request reg val) ∨ (∃ reg val, q = write16Request reg val)

/-- An answer of the kind the request expects (R40): a read's success carries two bytes, a write's carries none. -/
def BusResult.fits (r : BusResult) (q : BusRequest) : Prop :=
  match r, q.kind with
  | .ok, .write => True
  | .okRead _ _, .writeRead => True
  | .fail _, _ => True
  | .ok, .writeRead => False
  | .okRead _ _, .write => False

/-- A history entry that is answered, by an answer of the right kind. -/
def HistEntry.Answered (e : HistEntry) : Prop := ∃ r, e.answer = some r ∧ r.fits e.request

/-- Which commands are admitted in which value of `DRV` (R128). -/
def admitted (i : Instr) (d : Drv) : Bool :=
  match i, d with
  | .init, .uninit => true
  | .init, .initialized => false
  | .fetch _, .uninit => false
  | .fetch _, .initialized => true
  | .get _, .uninit => false
  | .get _, .initialized => true
  | .rd16 _, _ => true
  | .wr8 _ _, _ => true
  | .wr16 _ _, _ => true
  | .dec _, _ => true
  | .enc _, _ => true
  | .topub _, _ => true

/-- The agreement of `PHASE` with the history (R15, R50): in `IDLE` every request is answered; in `WAIT(c)` the word `c` is a
command admitted when it was accepted, its request is the newest of the history and unanswered, and every earlier one is
answered. -/
def PhaseAgrees (p : Phase) (d : Drv) (h : List HistEntry) : Prop :=
  match p with
  | .idle => ∀ e ∈ h, e.Answered
  | .wait c =>
    ∃ i q past, decode c = .command i ∧ admitted i d = true ∧ requestOf i = some q ∧
      h = past ++ [{ request := q, answer := none }] ∧ ∀ e ∈ past, e.Answered

/-- The invariant of a run: only the legal requests were ever issued; phase and history agree; and before initialisation
`RAW` still holds its reset value, since only `FETCH` writes it (R12) and `FETCH` is not admitted then (R128). -/
structure Inv (s : State) : Prop where
  legal  : ∀ e ∈ s.hist, e.request.Legal
  agrees : PhaseAgrees s.phase s.drv s.hist
  rawZero : s.drv = .uninit → s.raw = 0

/-- A must-be-zero bit of the command word is set, read off R63 with masks: `Z` for every command; `A` and `D` for `INIT`; `D`
for `FETCH`, `GET`, `RD16`; `D[15:8]` for `WR8`; `A` for `DEC`, `ENC`, `TOPUB`. -/
def MustBeZeroBitSet (cw : Word) : Prop :=
  cw &&& 0x0F000000 ≠ 0 ∨
  (cw &&& 0xF0000000 = 0x00000000 ∧ cw &&& 0x00FFFFFF ≠ 0) ∨
  ((cw &&& 0xF0000000 = 0x10000000 ∨ cw &&& 0xF0000000 = 0x20000000 ∨ cw &&& 0xF0000000 = 0x30000000) ∧
    cw &&& 0x0000FFFF ≠ 0) ∨
  (cw &&& 0xF0000000 = 0x40000000 ∧ cw &&& 0x0000FF00 ≠ 0) ∨
  ((cw &&& 0xF0000000 = 0x60000000 ∨ cw &&& 0xF0000000 = 0x70000000 ∨ cw &&& 0xF0000000 = 0x80000000) ∧
    cw &&& 0x00FF0000 ≠ 0)

/-- Which statuses a command can answer (R149) and which of `R0`, `R1` are then valid (R69); `none` means never raised. -/
def responseFields (i : Instr) (st : Status) : Option (Bool × Bool) :=
  match i, st with
  | .init, .ok => some (false, false)
  | .init, .deviceNotReady => some (false, false)
  | .init, .initializationFailed => some (false, false)
  | .fetch _, .ok => some (false, false)
  | .fetch _, .unsupportedChannel => some (false, false)
  | .fetch _, .fetchFailed => some (false, false)
  | .get _, .ok => some (true, true)
  | .get _, .unsupportedChannel => some (false, false)
  | .rd16 _, .ok => some (true, false)
  | .rd16 _, .transportError => some (true, false)
  | .wr8 _ _, .ok => some (false, false)
  | .wr8 _ _, .transportError => some (true, false)
  | .wr16 _ _, .ok => some (false, false)
  | .wr16 _ _, .transportError => some (true, false)
  | .dec _, .ok => some (true, false)
  | .enc _, .ok => some (true, false)
  | .topub _, .ok => some (true, true)
  | _, _ => none

/-- A result with its next state seen through `f`: two results are compared up to what `f` hides. -/
def mapNext (f : State → State) : Result → Result
  | .next s => .next (f s)
  | .fault r => .fault r
  | .refused r => .refused r

/-- "A run of the block is over when the requester has presented its last command and `PHASE = IDLE`" (R28). -/
def runOver (s : State) : Bool := s.phase == .idle && s.inputs.all (·.cmd.isNone)

end Sys2Proof.Machine
end

