-- ==== Sys2Proof/Certificates/Slice0/Obligations.lean ====
section
/-! DEFINITION. The statements for the provers. Command words are spelt from the layouts of spec/ (`{OP, 0b0000, A, D}`), bus
requests from `30_encoding.md` R72. A command that needs the bus has an acceptance part (in `PHASE = IDLE`) and a completion
part (in `PHASE = WAIT(c)` with a bus answer), so its statement has one clause for each; each clause gives the whole next
state as an update of the state before, which is the frame: every field not named there is unchanged. An answer sampled
in `WAIT(c)` is the answer to `c`; that a late one to an abandoned request is taken so too is the model's choice (log 23). -/
open Sys2Proof Sys2Proof.Machine

/-! ### Encoding and decoding -/

/-- R60, R62, R64, R77: no bit of an encoding is dropped, for every command and every operand value. -/
def Obligations.DecodeOfEncodeIsTheCommand : Prop :=
  ∀ i : Instr, decode (encode i) = .command i

/-- R60 to R63, R77: the decoder accepts a word only as the command whose word it is; two words are never one command. -/
def Obligations.EncodeOfDecodeIsTheWord : Prop :=
  ∀ (cw : Word) (i : Instr), decode cw = .command i → encode i = cw

/-- R62, R64: the nine rows, with their literal match and mask, and each operand from its bits (the numbering is the spec's own
decision D4). -/
def Obligations.DecodeByMatchAndMask : Prop :=
  ∀ cw : Word,
    (decode cw = .command .init ↔ cw &&& 0xFFFFFFFF = 0x00000000) ∧
    (∀ ch, decode cw = .command (.fetch ch) ↔ cw &&& 0xFF00FFFF = 0x10000000 ∧ ch = cw.extractLsb' 16 8) ∧
    (∀ ch, decode cw = .command (.get ch) ↔ cw &&& 0xFF00FFFF = 0x20000000 ∧ ch = cw.extractLsb' 16 8) ∧
    (∀ reg, decode cw = .command (.rd16 reg) ↔ cw &&& 0xFF00FFFF = 0x30000000 ∧ reg = cw.extractLsb' 16 8) ∧
    (∀ reg val, decode cw = .command (.wr8 reg val) ↔
      cw &&& 0xFF00FF00 = 0x40000000 ∧ reg = cw.extractLsb' 16 8 ∧ val = cw.extractLsb' 0 8) ∧
    (∀ reg val, decode cw = .command (.wr16 reg val) ↔
      cw &&& 0xFF000000 = 0x50000000 ∧ reg = cw.extractLsb' 16 8 ∧ val = cw.extractLsb' 0 16) ∧
    (∀ raw, decode cw = .command (.dec raw) ↔ cw &&& 0xFFFF0000 = 0x60000000 ∧ raw = cw.extractLsb' 0 16) ∧
    (∀ temp, decode cw = .command (.enc temp) ↔ cw &&& 0xFFFF0000 = 0x70000000 ∧ temp = cw.extractLsb' 0 16) ∧
    (∀ temp, decode cw = .command (.topub temp) ↔ cw &&& 0xFFFF0000 = 0x80000000 ∧ temp = cw.extractLsb' 0 16)

/-- R62: the rows partition the non-reserved words: a command's word is selected by its own row and no other, a reserved word
by none. -/
def Obligations.RowsPartitionTheCommandWords : Prop :=
  ∀ cw : Word,
    (∀ i, decode cw = .command i → ∀ r ∈ opcodeRows, r.selects cw = true ↔ r.mnemonic = i.mnemonic) ∧
    (∀ why, decode cw = .reserved why → ∀ r ∈ opcodeRows, r.selects cw = false)

/-- R63, R66: a word is reserved exactly when `OP` is `0x9` to `0xF` or a must-be-zero bit is set, and presented to an idle
block it is refused by name. -/
def Obligations.ReservedWordsAreRefused : Prop :=
  (∀ cw : Word, (∃ why, decode cw = .reserved why) ↔ 9 ≤ (cw.extractLsb' 28 4).toNat ∨ MustBeZeroBitSet cw) ∧
  (∀ (s : State) (cw : Word), s.phase = .idle → (nextSlot s.inputs).rst = false →
    (nextSlot s.inputs).cmd = some cw → 9 ≤ (cw.extractLsb' 28 4).toNat ∨ MustBeZeroBitSet cw →
    ∃ why, step s = .refused (.reservedWord why))

/-- `30_encoding.md` section 8, an inference the spec marks `[derived: from rule R60, rule R62 and rule R64]`:
`CW = {OP, 0b0000, A, D}`, for every command, and the ten examples given there. -/
def Obligations.EncodeFillsTheFields : Prop :=
  encode .init = 0x0#4 ++ 0b0000#4 ++ 0x00#8 ++ 0x0000#16 ∧
  (∀ ch, encode (.fetch ch) = 0x1#4 ++ 0b0000#4 ++ ch ++ 0x0000#16) ∧
  (∀ ch, encode (.get ch) = 0x2#4 ++ 0b0000#4 ++ ch ++ 0x0000#16) ∧
  (∀ reg, encode (.rd16 reg) = 0x3#4 ++ 0b0000#4 ++ reg ++ 0x0000#16) ∧
  (∀ reg val, encode (.wr8 reg val) = 0x4#4 ++ 0b0000#4 ++ reg ++ (0x00#8 ++ val)) ∧
  (∀ reg val, encode (.wr16 reg val) = 0x5#4 ++ 0b0000#4 ++ reg ++ val) ∧
  (∀ raw, encode (.dec raw) = 0x6#4 ++ 0b0000#4 ++ 0x00#8 ++ raw) ∧
  (∀ temp, encode (.enc temp) = 0x7#4 ++ 0b0000#4 ++ 0x00#8 ++ temp) ∧
  (∀ temp, encode (.topub temp) = 0x8#4 ++ 0b0000#4 ++ 0x00#8 ++ temp) ∧
  encode .init = 0x00000000 ∧
  encode (.fetch Config.chAmbient) = 0x10010000 ∧
  encode (.fetch Config.chAll) = 0x10000000 ∧
  encode (.get Config.chAmbient) = 0x20010000 ∧
  encode (.rd16 0x05) = 0x30050000 ∧
  encode (.wr8 0x08 3) = 0x40080003 ∧
  encode (.wr16 0x01 0x1234) = 0x50011234 ∧
  encode (.dec 0x1000) = 0x60001000 ∧
  encode (.enc (BitVec.ofInt 16 (-392))) = 0x7000FE78 ∧
  encode (.topub (BitVec.ofInt 16 (-392))) = 0x8000FE78

/-- 95_test_vectors.md section 2.1: words of every command and reserved neighbours one field away. -/
def Obligations.WorkedWordsDecode : Prop :=
  decode 0x00000000 = .command .init ∧
  decode 0x10FF0000 = .command (.fetch 0xFF) ∧
  decode 0x20010000 = .command (.get 0x01) ∧
  decode 0x30050000 = .command (.rd16 0x05) ∧
  decode 0x400800FF = .command (.wr8 0x08 0xFF) ∧
  decode 0x50011234 = .command (.wr16 0x01 0x1234) ∧
  decode 0x60001000 = .command (.dec 0x1000) ∧
  decode 0x7000FE78 = .command (.enc 0xFE78) ∧
  decode 0x8000FE78 = .command (.topub 0xFE78) ∧
  decode 0x90000000 = .reserved (.opcode 9) ∧
  decode 0x01000000 = .reserved (.field .z) ∧
  decode 0x00010000 = .reserved (.field .a) ∧
  decode 0x10010001 = .reserved (.field .d) ∧
  decode 0x40080103 = .reserved (.field .dHigh)

/-! ### The step -/

/-- R15, R74: in `IDLE`, with `rst = 0`, the command on the port is accepted: the step is `exec` of it at the state whose ports
hold this slot's inputs and no output of the slot before. -/
def Obligations.StepRunsThePresentedCommand : Prop :=
  ∀ (s : State) (cw : Word) (i : Instr), s.phase = .idle → (nextSlot s.inputs).rst = false →
    (nextSlot s.inputs).cmd = some cw → decode cw = .command i →
    step s = exec i { s with pin := nextSlot s.inputs, inputs := s.inputs.tail, rsp := none, breq := none }

/-- R15: in `WAIT(c)`, with `rst = 0`, the step goes on with the command in flight, whatever stands on the command port. -/
def Obligations.StepContinuesTheCommandInFlight : Prop :=
  ∀ (s : State) (cw : Word) (i : Instr), s.phase = .wait cw → (nextSlot s.inputs).rst = false → decode cw = .command i →
    step s = exec i { s with pin := nextSlot s.inputs, inputs := s.inputs.tail, rsp := none, breq := none }

/-- R170, R171: `rst = 1` resets from every state, a command in flight included; `cmd_ready`, `rsp_valid`, `breq_valid` are 0. -/
def Obligations.ResetFromEveryState : Prop :=
  ∀ s : State, (nextSlot s.inputs).rst = true →
    ∃ t, step s = .next t ∧
      t = { drv := .uninit, raw := 0x0000, phase := .idle, hist := [], pin := nextSlot s.inputs, rsp := none, breq := none,
            inputs := s.inputs.tail } ∧
      t.cmdReady = false ∧ t.rspValid = false ∧ t.breqValid = false

/-- R22: the reset values. -/
def Obligations.ResetValues : Prop :=
  State.reset.raw = 0x0000 ∧ State.reset.drv = .uninit ∧ State.reset.phase = .idle ∧ State.reset.hist = []

/-- R14, R15, R74: an idle block to which nothing is presented changes nothing of its state and puts nothing on its outputs. -/
def Obligations.IdleSlotWithoutCommandChangesNothing : Prop :=
  ∀ s : State, s.phase = .idle → (nextSlot s.inputs).rst = false → (nextSlot s.inputs).cmd = none →
    step s = .next { s with pin := nextSlot s.inputs, inputs := s.inputs.tail, rsp := none, breq := none }

/-- R171, R40: a bus answer that arrives while `PHASE = IDLE` is ignored: with or without it the step is the same, up to the
sampled answer port itself. -/
def Obligations.StrayAnswerIsIgnored : Prop :=
  ∀ (s : State) (p : Inputs) (ps : List Inputs) (a : BusAnswer), s.phase = .idle →
    mapNext (fun t => { t with pin := { t.pin with answer := none } })
      (step { s with inputs := { p with answer := some a } :: ps }) =
    mapNext (fun t => { t with pin := { t.pin with answer := none } })
      (step { s with inputs := { p with answer := none } :: ps })

/-- R15, D14: in `WAIT(c)` no command is accepted: whatever stands on the command port, the step is the same, up to the
sampled command port itself. -/
def Obligations.PortCommandIsIgnoredWhileWaiting : Prop :=
  ∀ (s : State) (c : Word) (p : Inputs) (ps : List Inputs) (cmd : Option Word), s.phase = .wait c →
    mapNext (fun t => { t with pin := { t.pin with cmd := none } }) (step { s with inputs := { p with cmd := cmd } :: ps }) =
    mapNext (fun t => { t with pin := { t.pin with cmd := none } }) (step { s with inputs := { p with cmd := none } :: ps })

/-- R15, R160: a request that is never answered: the command stays in flight for ever, with no effect and no response, as long
as no reset comes; a reset ends it, without a response. The premise is on the listed slots: once they are used up the run goes
on in quiet slots, in which no answer and no reset comes. That is the model's choice (log 2, DESIGN CHOICE), and that a step
without an answer is a next state is log 10 (DEDUCED). -/
def Obligations.UnansweredRequestHangs : Prop :=
  (∀ (s : State) (c : Word), s.phase = .wait c → (nextSlot s.inputs).rst = true →
    ∃ t, step s = .next t ∧ t.phase = .idle ∧ t.rsp = none) ∧
  ∀ (s : State) (c : Word) (i : Instr), s.phase = .wait c → decode c = .command i →
    (∀ p ∈ s.inputs, p.rst = false ∧ p.answer = none) →
    ∀ n : Nat, ∃ t, Sys2Proof.core.run (n + 1) s = .next t ∧ t.phase = .wait c ∧ t.cmdReady = false ∧ t.rsp = none ∧
      t.breq = none ∧ t.drv = s.drv ∧ t.raw = s.raw ∧ t.hist = s.hist

/-- R19: `bus_ready` is sampled only by `INIT` at acceptance: in any other slot the step is the same whatever it is, up to the
sampled port itself. -/
def Obligations.BusReadyMattersOnlyToInit : Prop :=
  ∀ (s : State) (p : Inputs) (ps : List Inputs) (b : Bool), (s.phase = .idle → p.cmd ≠ some 0x00000000) →
    mapNext (fun t => { t with pin := { t.pin with busReady := false } })
      (step { s with inputs := { p with busReady := b } :: ps }) =
    mapNext (fun t => { t with pin := { t.pin with busReady := false } })
      (step { s with inputs := { p with busReady := false } :: ps })

/-! ### The Register Transport -/

/-- R91: `RD16 reg`: one combined write-then-read of the register address; the two bytes, first one high, zero-extended into
`R0`; a failure gives `TRANSPORT_ERROR` with the bus's code in `R0`. -/
def Obligations.Rd16ReadsTheRegister : Prop :=
  ∀ (reg : Byte) (s : State),
    (s.phase = .idle → exec (.rd16 reg) s = .next { s with
        phase := .wait (0x3#4 ++ 0x0#4 ++ reg ++ 0x0000#16)
        hist := s.hist ++ [⟨⟨.writeRead, Config.busAddr7, [reg], 2⟩, none⟩]
        breq := some ⟨.writeRead, Config.busAddr7, [reg], 2⟩ }) ∧
    (∀ q past b0 b1 e, s.phase = .wait (0x3#4 ++ 0x0#4 ++ reg ++ 0x0000#16) → s.hist = past ++ [⟨q, none⟩] →
      s.pin.answer = some ⟨true, b0, b1, e⟩ →
      exec (.rd16 reg) s = .next { s with
        phase := .idle
        hist := past ++ [⟨q, some (.okRead b0 b1)⟩]
        rsp := some ⟨.ok, some ((b0 ++ b1).setWidth 32), none⟩ }) ∧
    (∀ q past b0 b1 e, s.phase = .wait (0x3#4 ++ 0x0#4 ++ reg ++ 0x0000#16) → s.hist = past ++ [⟨q, none⟩] →
      s.pin.answer = some ⟨false, b0, b1, e⟩ →
      exec (.rd16 reg) s = .next { s with
        phase := .idle
        hist := past ++ [⟨q, some (.fail e)⟩]
        rsp := some ⟨.transportError, some (e.setWidth 32), none⟩ })

/-- R92: `WR8 reg, val`: one plain write of the register address and the value byte. -/
def Obligations.Wr8WritesOneByte : Prop :=
  ∀ (reg val : Byte) (s : State),
    (s.phase = .idle → exec (.wr8 reg val) s = .next { s with
        phase := .wait (0x4#4 ++ 0x0#4 ++ reg ++ (0x00#8 ++ val))
        hist := s.hist ++ [⟨⟨.write, Config.busAddr7, [reg, val], 0⟩, none⟩]
        breq := some ⟨.write, Config.busAddr7, [reg, val], 0⟩ }) ∧
    (∀ q past b0 b1 e, s.phase = .wait (0x4#4 ++ 0x0#4 ++ reg ++ (0x00#8 ++ val)) → s.hist = past ++ [⟨q, none⟩] →
      s.pin.answer = some ⟨true, b0, b1, e⟩ →
      exec (.wr8 reg val) s = .next { s with
        phase := .idle
        hist := past ++ [⟨q, some .ok⟩]
        rsp := some ⟨.ok, none, none⟩ }) ∧
    (∀ q past b0 b1 e, s.phase = .wait (0x4#4 ++ 0x0#4 ++ reg ++ (0x00#8 ++ val)) → s.hist = past ++ [⟨q, none⟩] →
      s.pin.answer = some ⟨false, b0, b1, e⟩ →
      exec (.wr8 reg val) s = .next { s with
        phase := .idle
        hist := past ++ [⟨q, some (.fail e)⟩]
        rsp := some ⟨.transportError, some (e.setWidth 32), none⟩ })

/-- R93: `WR16 reg, val`: one plain write of the register address and the value's two bytes, high byte first. -/
def Obligations.Wr16WritesTwoBytesBigEndian : Prop :=
  ∀ (reg vh vl : Byte) (s : State),
    (s.phase = .idle → exec (.wr16 reg (vh ++ vl)) s = .next { s with
        phase := .wait (0x5#4 ++ 0x0#4 ++ reg ++ (vh ++ vl))
        hist := s.hist ++ [⟨⟨.write, Config.busAddr7, [reg, vh, vl], 0⟩, none⟩]
        breq := some ⟨.write, Config.busAddr7, [reg, vh, vl], 0⟩ }) ∧
    (∀ q past b0 b1 e, s.phase = .wait (0x5#4 ++ 0x0#4 ++ reg ++ (vh ++ vl)) → s.hist = past ++ [⟨q, none⟩] →
      s.pin.answer = some ⟨true, b0, b1, e⟩ →
      exec (.wr16 reg (vh ++ vl)) s = .next { s with
        phase := .idle
        hist := past ++ [⟨q, some .ok⟩]
        rsp := some ⟨.ok, none, none⟩ }) ∧
    (∀ q past b0 b1 e, s.phase = .wait (0x5#4 ++ 0x0#4 ++ reg ++ (vh ++ vl)) → s.hist = past ++ [⟨q, none⟩] →
      s.pin.answer = some ⟨false, b0, b1, e⟩ →
      exec (.wr16 reg (vh ++ vl)) s = .next { s with
        phase := .idle
        hist := past ++ [⟨q, some (.fail e)⟩]
        rsp := some ⟨.transportError, some (e.setWidth 32), none⟩ })

/-- R90: the transport commands are state-blind: with any other `DRV`, `RAW` and `bus_ready` they do the same, and leave those
as they are. -/
def Obligations.TransportIsStateBlind : Prop :=
  ∀ (i : Instr) (s : State) (d : Drv) (r : Half) (b : Bool),
    (∃ reg, i = .rd16 reg) ∨ (∃ reg val, i = .wr8 reg val) ∨ (∃ reg val, i = .wr16 reg val) →
    exec i { s with drv := d, raw := r, pin := { s.pin with busReady := b } } =
      mapNext (fun t => { t with drv := d, raw := r, pin := { t.pin with busReady := b } }) (exec i s) ∧
    ∃ t, exec i s = .next t ∧ t.drv = s.drv ∧ t.raw = s.raw

/-! ### The codec -/

/-- R100, R101: `decode` by the sign bit, in -4096..4095, not reading bits 15:13. -/
def Obligations.DecodeBySignBit : Prop :=
  ∀ raw : Half,
    (raw.getLsbD 12 = true → decodeRaw raw = -(1 + (((raw.extractLsb' 0 12) ^^^ 0xFFF#12).toNat : Int))) ∧
    (raw.getLsbD 12 = false → decodeRaw raw = ((raw.extractLsb' 0 12).toNat : Int)) ∧
    -4096 ≤ decodeRaw raw ∧ decodeRaw raw ≤ 4095 ∧
    decodeRaw raw = decodeRaw (raw &&& 0x1FFF)

/-- `41_codec.md` section 1, an inference the spec marks `[derived: from rule R100]`: the closed form: the low 13 bits read as
one two's-complement number. -/
def Obligations.DecodeClosedForm : Prop :=
  ∀ raw : Half, decodeRaw raw = (raw.extractLsb' 0 13).toInt

/-- R103: `encode(temp)` for every integer: magnitude `temp mod 4096`, the sign bit, bits 15:13 zero. -/
def Obligations.EncodeBySignAndMagnitude : Prop :=
  ∀ t : Int, ((encodeTemp t).toNat : Int) = (if t < 0 then 4096 else 0) + t % 4096

/-- `41_codec.md` section 2, an inference the spec marks `[derived: from rule R100 and rule R103]` of the source's own round-trip
property: the round trips, without exception. -/
def Obligations.CodecRoundTrips : Prop :=
  (∀ r : Half, encodeTemp (decodeRaw r) = r &&& 0x1FFF) ∧
  (∀ t : Int, -4096 ≤ t → t ≤ 4095 → decodeRaw (encodeTemp t) = t)

/-- `41_codec.md` section 2, an inference the spec marks `[derived: from rule R103]`: `decode` undoes `encode` exactly on
-4096..4095; outside, only the sign class and the residue modulo 4096 count. -/
def Obligations.EncodeOutsideTheCodecRange : Prop :=
  (∀ t : Int, decodeRaw (encodeTemp t) = t ↔ -4096 ≤ t ∧ t ≤ 4095) ∧
  (∀ t u : Int, (t < 0 ↔ u < 0) → t % 4096 = u % 4096 → encodeTemp t = encodeTemp u) ∧
  encodeTemp 4096 = 0x0000 ∧ encodeTemp (-4097) = 0x1FFF ∧ encodeTemp 32767 = 0x0FFF ∧ encodeTemp (-32768) = 0x1000

/-- R106, R111: `to_public` for every integer: the formulas, that the pair spells `t / 16` exactly, the remainder's range, and
that both parts carry the sign of `t`, with the rule's examples. (That the fraction is `62500` times the remainder is R109, an
inference the spec marks `[derived: from rule R106]`.) -/
def Obligations.ToPublicIsExactAndSigned : Prop :=
  (intPart (-392) = -24 ∧ fracMillionths (-392) = -500000 ∧ intPart (-1) = 0 ∧ fracMillionths (-1) = -62500) ∧
  ∀ t : Int,
    intPart t = t.tdiv 16 ∧ fracMillionths t = ((t - intPart t * 16) * 1000000).tdiv 16 ∧
    16 * (1000000 * intPart t + fracMillionths t) = 1000000 * t ∧
    fracMillionths t = 62500 * (t - intPart t * 16) ∧
    -15 ≤ t - intPart t * 16 ∧ t - intPart t * 16 ≤ 15 ∧
    (0 ≤ t → 0 ≤ intPart t ∧ 0 ≤ t - intPart t * 16 ∧ 0 ≤ fracMillionths t) ∧
    (t ≤ 0 → intPart t ≤ 0 ∧ t - intPart t * 16 ≤ 0 ∧ fracMillionths t ≤ 0)

/-- `41_codec.md` section 4, an inference the spec marks `[derived: from rule R100 and rule R106]`: for every command operand the results fit 32 bits, so `tc_32` loses nothing. -/
def Obligations.CodecResultsFit32Bits : Prop :=
  ∀ d : Half,
    -2048 ≤ intPart (signedOperand d) ∧ intPart (signedOperand d) ≤ 2047 ∧
    -937500 ≤ fracMillionths (signedOperand d) ∧ fracMillionths (signedOperand d) ≤ 937500 ∧
    (tc32 (intPart (signedOperand d))).toInt = intPart (signedOperand d) ∧
    (tc32 (fracMillionths (signedOperand d))).toInt = fracMillionths (signedOperand d) ∧
    (tc32 (decodeRaw d)).toInt = decodeRaw d ∧
    -256 ≤ intPart (decodeRaw d) ∧ intPart (decodeRaw d) ≤ 255

/-- R102: `DEC raw` completes as it is accepted, in both values of `DRV`, with `tc_32(decode(raw))` in `R0`; no bus request.
`decode(raw)` is spelt by its closed form R113, an inference the spec marks `[derived: from rule R100]`. -/
def Obligations.DecAnswersTheDecodedValue : Prop :=
  ∀ (raw : Half) (s : State), s.phase = .idle →
    exec (.dec raw) s = .next { s with rsp := some ⟨.ok, some (BitVec.ofInt 32 (raw.extractLsb' 0 13).toInt), none⟩ }

/-- R104: `ENC temp`: `R0[11:0] = D[11:0]`, `R0[12] = D[15]`, `R0[31:13] = 0`; no bus request. -/
def Obligations.EncAnswersTheEncodedValue : Prop :=
  ∀ (d : Half) (s : State), s.phase = .idle →
    exec (.enc d) s = .next { s with
      rsp := some ⟨.ok, some (0#19 ++ d.extractLsb' 15 1 ++ d.extractLsb' 0 12), none⟩ }

/-- R107: `TOPUB temp`: `tc_32` of the two parts of `to_public(signed(D))`, spelt as R106 gives them; no bus request. -/
def Obligations.TopubAnswersThePublicPair : Prop :=
  ∀ (d : Half) (s : State), s.phase = .idle →
    exec (.topub d) s = .next { s with
      rsp := some ⟨.ok, some (BitVec.ofInt 32 (d.toInt.tdiv 16)),
        some (BitVec.ofInt 32 (((d.toInt - d.toInt.tdiv 16 * 16) * 1000000).tdiv 16))⟩ }

/-! ### The Sensor State -/

/-- R120, R121: `INIT` in `UNINIT`: the readiness check, the write of the resolution code, success and failure. In `INITIALIZED`
it is not admitted and is refused (R128). -/
def Obligations.InitWritesTheResolution : Prop :=
  ∀ s : State,
    (s.phase = .idle → s.drv = .uninit → s.pin.busReady = false →
      exec .init s = .next { s with rsp := some ⟨.deviceNotReady, none, none⟩ }) ∧
    (s.phase = .idle → s.drv = .initialized → exec .init s = .refused .initWhenInitialized) ∧
    (s.phase = .idle → s.drv = .uninit → s.pin.busReady = true →
      exec .init s = .next { s with
        phase := .wait 0x00000000
        hist := s.hist ++ [⟨⟨.write, Config.busAddr7, [0x08, Config.resCode.setWidth 8], 0⟩, none⟩]
        breq := some ⟨.write, Config.busAddr7, [0x08, Config.resCode.setWidth 8], 0⟩ }) ∧
    (∀ q past b0 b1 e, s.phase = .wait 0x00000000 → s.hist = past ++ [⟨q, none⟩] →
      s.pin.answer = some ⟨true, b0, b1, e⟩ →
      exec .init s = .next { s with
        drv := .initialized
        phase := .idle
        hist := past ++ [⟨q, some .ok⟩]
        rsp := some ⟨.ok, none, none⟩ }) ∧
    (∀ q past b0 b1 e, s.phase = .wait 0x00000000 → s.hist = past ++ [⟨q, none⟩] →
      s.pin.answer = some ⟨false, b0, b1, e⟩ →
      exec .init s = .next { s with
        phase := .idle
        hist := past ++ [⟨q, some (.fail e)⟩]
        rsp := some ⟨.initializationFailed, none, none⟩ })

/-- R123, R124, R125: `FETCH ch` in `INITIALIZED`: the channel check, the read of register `0x05`, success and failure; in
`UNINIT` it is not admitted. -/
def Obligations.FetchStoresTheRawValue : Prop :=
  ∀ (ch : Byte) (s : State),
    (s.phase = .idle → s.drv = .uninit → exec (.fetch ch) s = .refused .fetchWhenUninit) ∧
    (s.phase = .idle → s.drv = .initialized → ch ≠ 0x00 → ch ≠ 0x01 →
      exec (.fetch ch) s = .next { s with rsp := some ⟨.unsupportedChannel, none, none⟩ }) ∧
    (s.phase = .idle → s.drv = .initialized → ch = 0x00 ∨ ch = 0x01 →
      exec (.fetch ch) s = .next { s with
        phase := .wait (0x1#4 ++ 0x0#4 ++ ch ++ 0x0000#16)
        hist := s.hist ++ [⟨⟨.writeRead, Config.busAddr7, [0x05], 2⟩, none⟩]
        breq := some ⟨.writeRead, Config.busAddr7, [0x05], 2⟩ }) ∧
    (∀ q past b0 b1 e, s.phase = .wait (0x1#4 ++ 0x0#4 ++ ch ++ 0x0000#16) → s.hist = past ++ [⟨q, none⟩] →
      s.pin.answer = some ⟨true, b0, b1, e⟩ →
      exec (.fetch ch) s = .next { s with
        raw := b0 ++ b1
        phase := .idle
        hist := past ++ [⟨q, some (.okRead b0 b1)⟩]
        rsp := some ⟨.ok, none, none⟩ }) ∧
    (∀ q past b0 b1 e, s.phase = .wait (0x1#4 ++ 0x0#4 ++ ch ++ 0x0000#16) → s.hist = past ++ [⟨q, none⟩] →
      s.pin.answer = some ⟨false, b0, b1, e⟩ →
      exec (.fetch ch) s = .next { s with
        phase := .idle
        hist := past ++ [⟨q, some (.fail e)⟩]
        rsp := some ⟨.fetchFailed, none, none⟩ })

/-- R126, R127: `GET ch`: in `UNINIT` it is not admitted; in `INITIALIZED` any channel but `CH_AMBIENT` is an error; `CH_AMBIENT` answers
`to_public(decode(RAW))`, with `RAW` at its reset value the pair `(0, 0)`. -/
def Obligations.GetAnswersTheDecodedTemperature : Prop :=
  (∀ (s : State) (ch : Byte), s.phase = .idle → s.drv = .uninit → exec (.get ch) s = .refused .getWhenUninit) ∧
  ∀ s : State, s.phase = .idle → s.drv = .initialized →
    (∀ ch, ch ≠ 0x01 → exec (.get ch) s = .next { s with rsp := some ⟨.unsupportedChannel, none, none⟩ }) ∧
    exec (.get 0x01) s = .next { s with
      rsp := some ⟨.ok, some (BitVec.ofInt 32 ((decodeRaw s.raw).tdiv 16)),
        some (BitVec.ofInt 32 (((decodeRaw s.raw - (decodeRaw s.raw).tdiv 16 * 16) * 1000000).tdiv 16))⟩ } ∧
    (s.raw = 0x0000 → exec (.get 0x01) s = .next { s with rsp := some ⟨.ok, some 0, some 0⟩ })

/-- R128: at acceptance, which commands are admitted in which value of `DRV`, and that the others are refused by name. -/
def Obligations.AdmissionByDriverState : Prop :=
  ∀ s : State, s.phase = .idle →
    (s.drv = .initialized → exec .init s = .refused .initWhenInitialized) ∧
    (s.drv = .uninit → ∀ ch, exec (.fetch ch) s = .refused .fetchWhenUninit ∧ exec (.get ch) s = .refused .getWhenUninit) ∧
    (s.drv = .uninit → ∃ t, exec .init s = .next t) ∧
    (s.drv = .initialized → ∀ ch, (∃ t, exec (.fetch ch) s = .next t) ∧ ∃ t, exec (.get ch) s = .next t) ∧
    (∀ reg val val16, (∃ t, exec (.rd16 reg) s = .next t) ∧ (∃ t, exec (.wr8 reg val) s = .next t) ∧
      ∃ t, exec (.wr16 reg val16) s = .next t) ∧
    (∀ d, (∃ t, exec (.dec d) s = .next t) ∧ (∃ t, exec (.enc d) s = .next t) ∧ ∃ t, exec (.topub d) s = .next t)

/-- R23, R13: what a successful `FETCH` received is what the next `GET AMBIENT` decodes, for every pair of bytes. The codec is
spelt by R113 and R109, inferences the spec marks `[derived: from rule R100]` and `[derived: from rule R106]`. -/
def Obligations.FetchedValueIsWhatGetDecodes : Prop :=
  ∀ (s : State) (ch b0 b1 e : Byte), s.drv = .initialized → s.phase = .wait (0x1#4 ++ 0x0#4 ++ ch ++ 0x0000#16) →
    s.pin.answer = some ⟨true, b0, b1, e⟩ →
    ∃ t u, exec (.fetch ch) s = .next t ∧ exec (.get 0x01) t = .next u ∧ u.raw = b0 ++ b1 ∧ u.hist = t.hist ∧
      u.rsp = some ⟨.ok, some (BitVec.ofInt 32 (((b0 ++ b1).extractLsb' 0 13).toInt.tdiv 16)),
        some (BitVec.ofInt 32 (62500 * ((b0 ++ b1).extractLsb' 0 13).toInt.tmod 16))⟩

/-- R94: `INIT` and `FETCH` put on the bus byte for byte the requests of `WR8 0x08, RES_CODE` and `RD16 0x05`. -/
def Obligations.SensorCommandsIssueTransportRequests : Prop :=
  ∀ s : State, s.phase = .idle →
    (s.drv = .uninit → s.pin.busReady = true → ∃ t u, exec .init s = .next t ∧
      exec (.wr8 0x08 (Config.resCode.setWidth 8)) s = .next u ∧ t.breq = u.breq ∧ t.hist = u.hist) ∧
    (∀ ch, s.drv = .initialized → ch = Config.chAll ∨ ch = Config.chAmbient → ∃ t u, exec (.fetch ch) s = .next t ∧
      exec (.rd16 0x05) s = .next u ∧ t.breq = u.breq ∧ t.hist = u.hist)

/-! ### The whole machine -/

/-- The invariant of a run holds at reset. -/
def Obligations.InvHoldsAtReset : Prop := Inv State.reset

/-- R12, R15, R44, R50, R72: every step, from every state that meets the invariant, keeps it: only legal requests, all to
`BUS_ADDR7`; the newest one outstanding exactly in `WAIT(c)` and all earlier ones answered; `RAW` zero until initialised. -/
def Obligations.StepKeepsInv : Prop :=
  ∀ s t : State, Inv s → step s = .next t → Inv t

/-- R12, R13: `RAW` changes only by reset or as one 16-bit write at the completion of a successful `FETCH`. -/
def Obligations.RawIsWrittenOnlyByFetch : Prop :=
  ∀ s t : State, step s = .next t → (nextSlot s.inputs).rst = false →
    t.raw = s.raw ∨
    ∃ ch b0 b1 e : Byte, s.phase = .wait (0x1#4 ++ 0x0#4 ++ ch ++ 0x0000#16) ∧
      (nextSlot s.inputs).answer = some ⟨true, b0, b1, e⟩ ∧ t.raw = b0 ++ b1 ∧ t.phase = .idle ∧
      t.rsp = some ⟨.ok, none, none⟩

/-- R21: `DRV` becomes `INITIALIZED` exactly when an `INIT` completes with success, and only reset takes it back. -/
def Obligations.DrvIsSetOnlyByInit : Prop :=
  ∀ s t : State, step s = .next t → (nextSlot s.inputs).rst = false →
    (t.drv = .initialized ↔ s.drv = .initialized ∨
      (s.phase = .wait 0x00000000 ∧ ∃ b0 b1 e, (nextSlot s.inputs).answer = some ⟨true, b0, b1, e⟩))

/-- R146: an error response changes nothing but `PHASE`, which is `IDLE` after it, and `R0` is valid exactly for
`TRANSPORT_ERROR`. -/
def Obligations.ErrorsChangeNothing : Prop :=
  ∀ (s t : State) (r : Response), step s = .next t → t.rsp = some r → r.status ≠ .ok →
    t.phase = .idle ∧ t.drv = s.drv ∧ t.raw = s.raw ∧ t.breq = none ∧
    t.hist.map (·.request) = s.hist.map (·.request) ∧ (r.r0.isSome = true ↔ r.status = .transportError) ∧ r.r1 = none

/-- R69: which result fields are valid, by command and status; and the table of `60_exceptions.md` section 1, an inference the
spec marks `[derived: from rules R141 to R145]`: which statuses a command can answer at all. -/
def Obligations.ResponseFieldsByCommandAndStatus : Prop :=
  ∀ (i : Instr) (s t : State) (r : Response), s.rsp = none → exec i s = .next t → t.rsp = some r →
    responseFields i r.status = some (r.r0.isSome, r.r1.isSome)

/-- R68, R15: a response stands on the port exactly in the step that completes a command. -/
def Obligations.OneResponsePerCompletion : Prop :=
  ∀ s t : State, Inv s → step s = .next t → (nextSlot s.inputs).rst = false →
    (t.rspValid = true ↔ t.phase = .idle ∧ (s.phase ≠ .idle ∨ (nextSlot s.inputs).cmd.isSome = true))

/-- R44, R72: at acceptance a command issues the one request of the table, or none; waiting it issues none. -/
def Obligations.EachCommandIssuesItsOneRequest : Prop :=
  ∀ (i : Instr) (s t : State), s.breq = none → exec i s = .next t →
    (s.phase ≠ .idle → t.breq = none ∧ t.hist.length = s.hist.length) ∧
    (s.phase = .idle → i = .init → s.pin.busReady = false → t.breq = none ∧ t.hist = s.hist) ∧
    (s.phase = .idle → (i = .init → s.pin.busReady = true) →
      t.breq = requestOf i ∧ t.hist = s.hist ++ ((requestOf i).map (fun q => ⟨q, none⟩)).toList)

/-- R50: requests enter the history in command order, and only when every earlier one is answered. -/
def Obligations.HistoryGrowsInCommandOrder : Prop :=
  ∀ s t : State, Inv s → step s = .next t → (nextSlot s.inputs).rst = false →
    t.hist.map (·.request) = s.hist.map (·.request) ∨
    ((∀ e ∈ s.hist, e.answer.isSome = true) ∧ ∃ q, t.breq = some q ∧ t.hist = s.hist ++ [⟨q, none⟩])

/-- R11, R101: no command's result depends on `RAW[15:13]`: two states that differ in those bits only step to the same, up to
those bits. -/
def Obligations.FlagBitsOfRawNeverMatter : Prop :=
  ∀ (s : State) (r : Half), r &&& 0x1FFF = s.raw &&& 0x1FFF →
    mapNext (fun t => { t with raw := t.raw &&& 0x1FFF }) (step { s with raw := r }) =
    mapNext (fun t => { t with raw := t.raw &&& 0x1FFF }) (step s)

/-- R18: nothing the block does reads `HIST`: with any other history the step is the same, up to the history. -/
def Obligations.HistoryIsNeverRead : Prop :=
  ∀ (s : State) (h : List HistEntry),
    mapNext (fun t => { t with hist := [] }) (step { s with hist := h }) = mapNext (fun t => { t with hist := [] }) (step s)

/-- R66, R128 and the table of `60_exceptions.md` section 1: a run stops only at a reserved word or at a command not admitted, presented to an idle block; in every
other case there is a next state. -/
def Obligations.RunsStopOnlyAtReservedOrUnadmittedCommands : Prop :=
  ∀ s : State, Inv s →
    (∃ t, step s = .next t) ∨
    ((nextSlot s.inputs).rst = false ∧ s.phase = .idle ∧ ∃ cw, (nextSlot s.inputs).cmd = some cw ∧
      ((∃ why, decode cw = .reserved why ∧ step s = .refused (.reservedWord why)) ∨
       (decode cw = .command .init ∧ s.drv = .initialized ∧ step s = .refused .initWhenInitialized) ∨
       (∃ ch, decode cw = .command (.fetch ch) ∧ s.drv = .uninit ∧ step s = .refused .fetchWhenUninit) ∨
       (∃ ch, decode cw = .command (.get ch) ∧ s.drv = .uninit ∧ step s = .refused .getWhenUninit)))

/-- R70: the status codes. -/
def Obligations.StatusCodes : Prop :=
  Status.code .ok = 0x0 ∧ Status.code .deviceNotReady = 0x1 ∧ Status.code .initializationFailed = 0x2 ∧
  Status.code .unsupportedChannel = 0x3 ∧ Status.code .fetchFailed = 0x4 ∧ Status.code .transportError = 0x5

/-! ### The textual syntax -/

/-- R75: an operand out of its range has no encoding; in range, the line stands for the command with that operand (`temp` in two's
complement). -/
def Obligations.OperandRangesOfTheTextualSyntax : Prop :=
  (∀ ch : Nat, expandAsm (.fetch ch) = if ch ≤ 255 then some [.fetch (BitVec.ofNat 8 ch)] else none) ∧
  (∀ ch : Nat, expandAsm (.get ch) = if ch ≤ 255 then some [.get (BitVec.ofNat 8 ch)] else none) ∧
  (∀ reg : Nat, expandAsm (.rd16 reg) = if reg ≤ 255 then some [.rd16 (BitVec.ofNat 8 reg)] else none) ∧
  (∀ reg val : Nat, expandAsm (.wr8 reg val) =
    if reg ≤ 255 ∧ val ≤ 255 then some [.wr8 (BitVec.ofNat 8 reg) (BitVec.ofNat 8 val)] else none) ∧
  (∀ reg val : Nat, expandAsm (.wr16 reg val) =
    if reg ≤ 255 ∧ val ≤ 65535 then some [.wr16 (BitVec.ofNat 8 reg) (BitVec.ofNat 16 val)] else none) ∧
  (∀ raw : Nat, expandAsm (.dec raw) = if raw ≤ 65535 then some [.dec (BitVec.ofNat 16 raw)] else none) ∧
  (∀ (temp : Int) (is : List Instr), expandAsm (.enc temp) = some is →
    -32768 ≤ temp ∧ temp ≤ 32767 ∧ ∃ d, is = [.enc d] ∧ signedOperand d = temp) ∧
  (∀ (temp : Int) (is : List Instr), expandAsm (.topub temp) = some is →
    -32768 ≤ temp ∧ temp ≤ 32767 ∧ ∃ d, is = [.topub d] ∧ signedOperand d = temp) ∧
  (∀ temp : Int, -32768 ≤ temp → temp ≤ 32767 → (expandAsm (.enc temp)).isSome = true ∧
    (expandAsm (.topub temp)).isSome = true)

/-- R76: `SAMPLE` is `FETCH AMBIENT` then `GET AMBIENT`, and the requester goes on to `GET` exactly on `OK`. -/
def Obligations.SampleIsFetchThenGet : Prop :=
  assemble "SAMPLE" = some [0x10010000, 0x20010000] ∧
  ∀ r : Response, sampleNext r = some (.get Config.chAmbient) ↔ r.status = .ok
end

