-- ==== Sys2Proof/Laws/State.lean ====
section
/-! SUPPORT. Each field of the state after each named update, true by definition, so that no later proof unfolds a record
update. -/
namespace Sys2Proof.Machine

variable (s : State)

/-! `State.issue` -/

@[simp] theorem issue_drv (c : Word) (q : BusRequest) : (s.issue c q).drv = s.drv := rfl
@[simp] theorem issue_raw (c : Word) (q : BusRequest) : (s.issue c q).raw = s.raw := rfl
@[simp] theorem issue_phase (c : Word) (q : BusRequest) : (s.issue c q).phase = .wait c := rfl
@[simp] theorem issue_hist (c : Word) (q : BusRequest) : (s.issue c q).hist = s.hist ++ [⟨q, none⟩] := rfl
@[simp] theorem issue_pin (c : Word) (q : BusRequest) : (s.issue c q).pin = s.pin := rfl
@[simp] theorem issue_rsp (c : Word) (q : BusRequest) : (s.issue c q).rsp = s.rsp := rfl
@[simp] theorem issue_breq (c : Word) (q : BusRequest) : (s.issue c q).breq = some q := rfl
@[simp] theorem issue_inputs (c : Word) (q : BusRequest) : (s.issue c q).inputs = s.inputs := rfl

/-! `State.recordAnswer` -/

@[simp] theorem recordAnswer_drv (r : BusResult) : (s.recordAnswer r).drv = s.drv := rfl
@[simp] theorem recordAnswer_raw (r : BusResult) : (s.recordAnswer r).raw = s.raw := rfl
@[simp] theorem recordAnswer_phase (r : BusResult) : (s.recordAnswer r).phase = s.phase := rfl
@[simp] theorem recordAnswer_hist (r : BusResult) : (s.recordAnswer r).hist = answerLast r s.hist := rfl
@[simp] theorem recordAnswer_pin (r : BusResult) : (s.recordAnswer r).pin = s.pin := rfl
@[simp] theorem recordAnswer_rsp (r : BusResult) : (s.recordAnswer r).rsp = s.rsp := rfl
@[simp] theorem recordAnswer_breq (r : BusResult) : (s.recordAnswer r).breq = s.breq := rfl
@[simp] theorem recordAnswer_inputs (r : BusResult) : (s.recordAnswer r).inputs = s.inputs := rfl

/-! `State.respondOk` -/

@[simp] theorem respondOk_drv (r0 r1 : Option Word) : (s.respondOk r0 r1).drv = s.drv := rfl
@[simp] theorem respondOk_raw (r0 r1 : Option Word) : (s.respondOk r0 r1).raw = s.raw := rfl
@[simp] theorem respondOk_phase (r0 r1 : Option Word) : (s.respondOk r0 r1).phase = .idle := rfl
@[simp] theorem respondOk_hist (r0 r1 : Option Word) : (s.respondOk r0 r1).hist = s.hist := rfl
@[simp] theorem respondOk_pin (r0 r1 : Option Word) : (s.respondOk r0 r1).pin = s.pin := rfl
@[simp] theorem respondOk_rsp (r0 r1 : Option Word) : (s.respondOk r0 r1).rsp = some ⟨.ok, r0, r1⟩ := rfl
@[simp] theorem respondOk_breq (r0 r1 : Option Word) : (s.respondOk r0 r1).breq = s.breq := rfl
@[simp] theorem respondOk_inputs (r0 r1 : Option Word) : (s.respondOk r0 r1).inputs = s.inputs := rfl

/-! `State.raise` -/

@[simp] theorem raise_drv (e : Status) (info : Option Word) : (s.raise e info).drv = s.drv := rfl
@[simp] theorem raise_raw (e : Status) (info : Option Word) : (s.raise e info).raw = s.raw := rfl
@[simp] theorem raise_phase (e : Status) (info : Option Word) : (s.raise e info).phase = .idle := rfl
@[simp] theorem raise_hist (e : Status) (info : Option Word) : (s.raise e info).hist = s.hist := rfl
@[simp] theorem raise_pin (e : Status) (info : Option Word) : (s.raise e info).pin = s.pin := rfl
@[simp] theorem raise_rsp (e : Status) (info : Option Word) : (s.raise e info).rsp = some ⟨e, info, none⟩ := rfl
@[simp] theorem raise_breq (e : Status) (info : Option Word) : (s.raise e info).breq = s.breq := rfl
@[simp] theorem raise_inputs (e : Status) (info : Option Word) : (s.raise e info).inputs = s.inputs := rfl

/-! `State.respondPublic` -/

@[simp] theorem respondPublic_drv (t : Int) : (s.respondPublic t).drv = s.drv := rfl
@[simp] theorem respondPublic_raw (t : Int) : (s.respondPublic t).raw = s.raw := rfl
@[simp] theorem respondPublic_phase (t : Int) : (s.respondPublic t).phase = .idle := rfl
@[simp] theorem respondPublic_hist (t : Int) : (s.respondPublic t).hist = s.hist := rfl
@[simp] theorem respondPublic_pin (t : Int) : (s.respondPublic t).pin = s.pin := rfl
@[simp] theorem respondPublic_rsp (t : Int) : (s.respondPublic t).rsp = some ⟨.ok, some (tc32 (intPart t)), some (tc32 (fracMillionths t))⟩ := rfl
@[simp] theorem respondPublic_breq (t : Int) : (s.respondPublic t).breq = s.breq := rfl
@[simp] theorem respondPublic_inputs (t : Int) : (s.respondPublic t).inputs = s.inputs := rfl

/-! `State.sample` -/

@[simp] theorem sample_drv : (s.sample).drv = s.drv := rfl
@[simp] theorem sample_raw : (s.sample).raw = s.raw := rfl
@[simp] theorem sample_phase : (s.sample).phase = s.phase := rfl
@[simp] theorem sample_hist : (s.sample).hist = s.hist := rfl
@[simp] theorem sample_pin : (s.sample).pin = nextSlot s.inputs := rfl
@[simp] theorem sample_rsp : (s.sample).rsp = none := rfl
@[simp] theorem sample_breq : (s.sample).breq = none := rfl
@[simp] theorem sample_inputs : (s.sample).inputs = s.inputs.tail := rfl

/-! `State.applyReset` -/

@[simp] theorem applyReset_drv : (s.applyReset).drv = .uninit := rfl
@[simp] theorem applyReset_raw : (s.applyReset).raw = 0 := rfl
@[simp] theorem applyReset_phase : (s.applyReset).phase = .idle := rfl
@[simp] theorem applyReset_hist : (s.applyReset).hist = [] := rfl
@[simp] theorem applyReset_pin : (s.applyReset).pin = s.pin := rfl
@[simp] theorem applyReset_rsp : (s.applyReset).rsp = none := rfl
@[simp] theorem applyReset_breq : (s.applyReset).breq = none := rfl
@[simp] theorem applyReset_inputs : (s.applyReset).inputs = s.inputs := rfl

/-! `State.withFetchWord` -/

@[simp] theorem withFetchWord_drv (n w : Nat) : (s.withFetchWord n w).drv = s.drv := rfl
@[simp] theorem withFetchWord_raw (n w : Nat) : (s.withFetchWord n w).raw = s.raw := rfl
@[simp] theorem withFetchWord_phase (n w : Nat) : (s.withFetchWord n w).phase = .idle := rfl
@[simp] theorem withFetchWord_hist (n w : Nat) : (s.withFetchWord n w).hist = s.hist := rfl
@[simp] theorem withFetchWord_pin (n w : Nat) : (s.withFetchWord n w).pin = s.pin := rfl
@[simp] theorem withFetchWord_rsp (n w : Nat) : (s.withFetchWord n w).rsp = s.rsp := rfl
@[simp] theorem withFetchWord_breq (n w : Nat) : (s.withFetchWord n w).breq = s.breq := rfl
@[simp] theorem withFetchWord_inputs (n w : Nat) : (s.withFetchWord n w).inputs = presentWord (BitVec.ofNat 32 (w % 2 ^ n)) s.inputs := rfl

/-! `State.reset`, `Inputs.quiet`, `nextSlot` -/

@[simp] theorem nextSlot_nil : nextSlot [] = Inputs.quiet := rfl
@[simp] theorem nextSlot_cons (p : Inputs) (ps : List Inputs) : nextSlot (p :: ps) = p := rfl
@[simp] theorem nextSlot_presentWord (cw : Word) (ps : List Inputs) :
    nextSlot (presentWord cw ps) = { nextSlot ps with rst := false, cmd := some cw } := rfl
@[simp] theorem tail_presentWord (cw : Word) (ps : List Inputs) : (presentWord cw ps).tail = ps.tail := rfl
@[simp] theorem quiet_rst : Inputs.quiet.rst = false := rfl
@[simp] theorem quiet_cmd : Inputs.quiet.cmd = none := rfl
@[simp] theorem quiet_busReady : Inputs.quiet.busReady = false := rfl
@[simp] theorem quiet_answer : Inputs.quiet.answer = none := rfl

end Sys2Proof.Machine
end

