-- ==== Sys2Proof/Laws/Codec.lean ====
section
/-! SUPPORT. The codec's functions in the arithmetic that proofs about them need: the raw value's magnitude and sign as
numbers, and the truncating division by 16 as quotient and remainder. -/
namespace Sys2Proof.Machine

@[simp] theorem magField_toNat (raw : Half) : (magField raw).toNat = raw.toNat % 4096 := by
  simp [magField]

/-- The sign bit as a condition on the number. -/
theorem signField_iff (raw : Half) : signField raw = true ↔ 4096 ≤ raw.toNat % 8192 := by
  have h : signField raw = raw.toNat.testBit 12 := rfl
  rw [h, Nat.testBit_eq_decide_div_mod_eq]
  simp only [decide_eq_true_eq]
  omega

/-- `magnitude XOR 0xFFF` is `4095 - magnitude` (R113). -/
theorem xor_ones_toNat (m : BitVec 12) : (m ^^^ 0xFFF).toNat = 4095 - m.toNat := by
  have h : m ^^^ 0xFFF = ~~~m := by
    rw [show (0xFFF : BitVec 12) = BitVec.allOnes 12 from rfl, BitVec.xor_allOnes]
  rw [h, BitVec.toNat_not]

/-- The quotient of `to_public` and its remainder, by the sign of the dividend (R108). -/
theorem intPart_spec (t : Int) :
    (0 ≤ t → intPart t = t / 16) ∧ (t ≤ 0 → intPart t = -(-t / 16)) := by
  constructor
  · intro h
    exact Int.tdiv_eq_ediv_of_nonneg h
  · intro h
    have h1 : intPart t = -((-t).tdiv 16) := by simp [intPart, Int.neg_tdiv]
    rw [h1, Int.tdiv_eq_ediv_of_nonneg (by omega)]

/-- Both divisions of `to_public` together: the second is exact (R109). -/
theorem fracMillionths_eq (t : Int) : fracMillionths t = 62500 * (t - intPart t * 16) := by
  have h : (t - intPart t * 16) * 1000000 = (62500 * (t - intPart t * 16)) * 16 := by omega
  rw [fracMillionths, h, Int.mul_tdiv_cancel _ (by decide)]

end Sys2Proof.Machine
end

