-- ==== Sys2Proof/Laws/Decode.lean ====
section
/-! SUPPORT. The fields of a packed word, and a word from its fields: the lemmas round trips are made of. -/
namespace Sys2Proof

@[simp] theorem opField_packWord (op : BitVec 4) (a : Byte) (d : Half) : opField (packWord op a d) = op := by
  apply BitVec.eq_of_getLsbD_eq
  intro k hk
  simp only [opField, packWord, BitVec.getLsbD_extractLsb', BitVec.getLsbD_append]
  simp [hk, show ¬ (28 + k < 16) by omega, show ¬ (28 + k - 16 < 8) by omega,
    show ¬ (28 + k - 16 - 8 < 4) by omega, show 28 + k - 16 - 8 - 4 = k by omega]

@[simp] theorem zField_packWord (op : BitVec 4) (a : Byte) (d : Half) : zField (packWord op a d) = 0 := by
  apply BitVec.eq_of_getLsbD_eq
  intro k hk
  simp only [zField, packWord, BitVec.getLsbD_extractLsb', BitVec.getLsbD_append]
  simp [hk, show ¬ (24 + k < 16) by omega, show ¬ (24 + k - 16 < 8) by omega,
    show 24 + k - 16 - 8 < 4 by omega]

@[simp] theorem aField_packWord (op : BitVec 4) (a : Byte) (d : Half) : aField (packWord op a d) = a := by
  apply BitVec.eq_of_getLsbD_eq
  intro k hk
  simp only [aField, packWord, BitVec.getLsbD_extractLsb', BitVec.getLsbD_append]
  simp [hk]

@[simp] theorem dField_packWord (op : BitVec 4) (a : Byte) (d : Half) : dField (packWord op a d) = d := by
  apply BitVec.eq_of_getLsbD_eq
  intro k hk
  simp only [dField, packWord, BitVec.getLsbD_extractLsb', BitVec.getLsbD_append]
  simp [hk]

/-- A word whose `Z` is zero is its own fields packed again. -/
theorem packWord_fields {cw : Word} (hz : zField cw = 0) : packWord (opField cw) (aField cw) (dField cw) = cw := by
  apply BitVec.eq_of_getLsbD_eq
  intro k hk
  have hz' : 24 ≤ k → k < 28 → cw.getLsbD k = false := by
    intro h1 h2
    have := congrArg (·.getLsbD (k - 24)) hz
    simpa [zField, show k - 24 < 4 by omega, show 24 + (k - 24) = k by omega] using this
  simp only [packWord, opField, aField, dField, BitVec.getLsbD_append, BitVec.getLsbD_extractLsb']
  by_cases h16 : k < 16
  · simp [h16]
  by_cases h24 : k - 16 < 8
  · simp [h16, h24, show 16 + (k - 16) = k by omega]
  by_cases h28 : k - 16 - 8 < 4
  · simp [h16, h24, h28, hz' (by omega) (by omega)]
  · simp [h16, h24, h28, show k - 16 - 8 - 4 < 4 by omega, show 28 + (k - 16 - 8 - 4) = k by omega]

/-- Any word is its four fields put together (R60). -/
theorem word_fields (cw : Word) : opField cw ++ zField cw ++ aField cw ++ dField cw = cw := by
  apply BitVec.eq_of_getLsbD_eq
  intro k hk
  simp only [opField, zField, aField, dField, BitVec.getLsbD_append, BitVec.getLsbD_extractLsb']
  by_cases h16 : k < 16
  · simp [h16]
  by_cases h24 : k - 16 < 8
  · simp [h16, h24, show 16 + (k - 16) = k by omega]
  by_cases h28 : k - 16 - 8 < 4
  · simp [h16, h24, h28, show 24 + (k - 16 - 8) = k by omega]
  · simp [h16, h24, h28, show k - 16 - 8 - 4 < 4 by omega, show 28 + (k - 16 - 8 - 4) = k by omega]

/-- Two bit strings of the same split are equal when their parts are. -/
theorem append_eq_iff {m n : Nat} {x x' : BitVec m} {y y' : BitVec n} : x ++ y = x' ++ y' ↔ x = x' ∧ y = y' := by
  constructor
  · intro h
    constructor
    · apply BitVec.eq_of_getLsbD_eq
      intro k _
      have := congrArg (·.getLsbD (n + k)) h
      simpa [BitVec.getLsbD_append] using this
    · apply BitVec.eq_of_getLsbD_eq
      intro k hk
      have := congrArg (·.getLsbD k) h
      simpa [BitVec.getLsbD_append, hk] using this
  · rintro ⟨rfl, rfl⟩
    rfl

/-- A word masked field by field and compared field by field (R62). -/
theorem word_and_eq_iff (cw : Word) (mo mz vo vz : BitVec 4) (ma va : Byte) (md vd : Half) :
    cw &&& (mo ++ mz ++ ma ++ md) = vo ++ vz ++ va ++ vd ↔
      opField cw &&& mo = vo ∧ zField cw &&& mz = vz ∧ aField cw &&& ma = va ∧ dField cw &&& md = vd := by
  have h1 : (opField cw ++ zField cw) &&& (mo ++ mz) = (opField cw &&& mo) ++ (zField cw &&& mz) := BitVec.and_append
  have h2 : (opField cw ++ zField cw ++ aField cw) &&& (mo ++ mz ++ ma) =
      (opField cw &&& mo) ++ (zField cw &&& mz) ++ (aField cw &&& ma) := by rw [BitVec.and_append, h1]
  have h3 : cw &&& (mo ++ mz ++ ma ++ md) =
      (opField cw &&& mo) ++ (zField cw &&& mz) ++ (aField cw &&& ma) ++ (dField cw &&& md) := by
    conv_lhs => rw [← word_fields cw]
    exact BitVec.and_append.trans (congrArg (· ++ (dField cw &&& md)) h2)
  rw [h3]
  exact append_eq_iff.trans (by rw [append_eq_iff, append_eq_iff]; tauto)

/-- The bits of two bytes put together, the first one high. -/
theorem getLsbD_bytes (h l : Byte) (k : Nat) :
    ((h ++ l : Half)).getLsbD k = if k < 8 then l.getLsbD k else h.getLsbD (k - 8) := by
  have := BitVec.getLsbD_append (x := h) (y := l) (i := k)
  simpa using this

@[simp] theorem highByte_append (h l : Byte) : highByte (h ++ l) = h := by
  apply BitVec.eq_of_getLsbD_eq
  intro k hk
  rw [highByte, BitVec.getLsbD_extractLsb', getLsbD_bytes]
  simp [hk]

@[simp] theorem lowByte_append (h l : Byte) : lowByte (h ++ l) = l := by
  apply BitVec.eq_of_getLsbD_eq
  intro k hk
  rw [lowByte, BitVec.getLsbD_extractLsb', getLsbD_bytes]
  simp [hk]

/-- A 16-bit value is its two bytes, high byte first. -/
theorem bytes_append (d : Half) : highByte d ++ lowByte d = d := by
  apply BitVec.eq_of_getLsbD_eq (w := 16)
  intro k hk
  rw [getLsbD_bytes, highByte, lowByte, BitVec.getLsbD_extractLsb', BitVec.getLsbD_extractLsb']
  by_cases h8 : k < 8
  · simp [h8]
  · simp [h8, show k - 8 < 8 by omega, show 8 + (k - 8) = k by omega]

@[simp] theorem needZero_zero {n : Nat} (f : ZeroField) (k : Decoded) : needZero (0#n) f k = k := by
  simp [needZero]

/-- A decoder path through a must-be-zero field ends in a command only if the field is zero. -/
theorem needZero_eq_command {n : Nat} {v : BitVec n} {f : ZeroField} {k : Decoded} {i : Instr} :
    needZero v f k = .command i ↔ v = 0 ∧ k = .command i := by
  unfold needZero
  split <;> simp_all

/-- A decoder path through a must-be-zero field ends in "reserved" if the field is set or the rest of the path does. -/
theorem needZero_eq_reserved {n : Nat} {v : BitVec n} {f : ZeroField} {k : Decoded} :
    (∃ why, needZero v f k = .reserved why) ↔ v ≠ 0 ∨ ∃ why, k = .reserved why := by
  unfold needZero
  split <;> simp_all

/-- What the decoder accepts, row by row: the opcode, the must-be-zero fields, the operands (R62, R63, R64). -/
theorem decode_eq_command_iff (cw : Word) (i : Instr) : decode cw = .command i ↔
    (opField cw = 0 ∧ zField cw = 0 ∧ aField cw = 0 ∧ dField cw = 0 ∧ .init = i) ∨
    (opField cw = 1 ∧ zField cw = 0 ∧ dField cw = 0 ∧ .fetch (aField cw) = i) ∨
    (opField cw = 2 ∧ zField cw = 0 ∧ dField cw = 0 ∧ .get (aField cw) = i) ∨
    (opField cw = 3 ∧ zField cw = 0 ∧ dField cw = 0 ∧ .rd16 (aField cw) = i) ∨
    (opField cw = 4 ∧ zField cw = 0 ∧ highByte (dField cw) = 0 ∧ .wr8 (aField cw) (lowByte (dField cw)) = i) ∨
    (opField cw = 5 ∧ zField cw = 0 ∧ .wr16 (aField cw) (dField cw) = i) ∨
    (opField cw = 6 ∧ zField cw = 0 ∧ aField cw = 0 ∧ .dec (dField cw) = i) ∨
    (opField cw = 7 ∧ zField cw = 0 ∧ aField cw = 0 ∧ .enc (dField cw) = i) ∨
    (opField cw = 8 ∧ zField cw = 0 ∧ aField cw = 0 ∧ .topub (dField cw) = i) := by
  unfold decode
  generalize opField cw = op, zField cw = z, aField cw = a, dField cw = d
  simp only []
  split_ifs with h0 h1 h2 h3 h4 h5 h6 h7 h8
  case neg => simp only [h0, h1, h2, h3, h4, h5, h6, h7, h8, false_and, or_self]
  all_goals subst_vars; simp [needZero_eq_command]

end Sys2Proof
end

