-- ==== Sys2Proof/Laws/Ops.lean ====
section
/-! SUPPORT. What each shared operation can do, said once: the history update, the two shapes of a command, the two shapes
of a completion. -/
namespace Sys2Proof.Machine

/-- The newest request gets the answer; the older entries stay. -/
@[simp] theorem answerLast_append (r : BusResult) (past : List HistEntry) (e : HistEntry) :
    answerLast r (past ++ [e]) = past ++ [{ e with answer := some r }] := by
  induction past with
  | nil => rfl
  | cons f past ih =>
    cases past with
    | nil => rfl
    | cons g past => simpa [answerLast] using ih

/-- Answering changes no request of the history. -/
@[simp] theorem answerLast_requests (r : BusResult) (h : List HistEntry) :
    (answerLast r h).map (·.request) = h.map (·.request) := by
  induction h with
  | nil => rfl
  | cons e es ih =>
    cases es with
    | nil => rfl
    | cons f fs => simpa [answerLast] using ih

@[simp] theorem answerLast_length (r : BusResult) (h : List HistEntry) : (answerLast r h).length = h.length := by
  simpa only [List.length_map] using congrArg List.length (answerLast_requests r h)

/-- A local command in `IDLE` is its acceptance. -/
@[simp] theorem localCommand_idle {accept : State → Result} {s : State} (h : s.phase = .idle) :
    localCommand accept s = accept s := by
  simp [localCommand, h]

/-- A local command presented in `WAIT` changes nothing. -/
@[simp] theorem localCommand_wait {accept : State → Result} {s : State} {c : Word} (h : s.phase = .wait c) :
    localCommand accept s = .next s := by
  simp [localCommand, h]

/-- A bus command in `IDLE` is its acceptance. -/
@[simp] theorem busCommand_idle {i : Instr} {accept : State → Result} {k : BusAnswer → State → State} {s : State}
    (h : s.phase = .idle) : busCommand i accept k s = accept s := by
  simp [busCommand, h]

/-- A bus command in flight with no answer changes nothing. -/
theorem busCommand_unanswered {i : Instr} {accept : State → Result} {k : BusAnswer → State → State} {s : State} {c : Word}
    (h : s.phase = .wait c) (ha : s.pin.answer = none) : busCommand i accept k s = .next s := by
  simp [busCommand, h, ha]

/-- A bus command in flight with an answer completes. -/
theorem busCommand_answered {i : Instr} {accept : State → Result} {k : BusAnswer → State → State} {s : State} {a : BusAnswer}
    (h : s.phase = .wait (encode i)) (ha : s.pin.answer = some a) : busCommand i accept k s = .next (k a s) := by
  simp [busCommand, h, ha]

/-- Everything a local command can do when it answers a next state. -/
theorem localCommand_cases {accept : State → Result} {s t : State} (h : localCommand accept s = .next t) :
    (s.phase = .idle ∧ accept s = .next t) ∨ ((∃ c, s.phase = .wait c) ∧ t = s) := by
  cases hp : s.phase with
  | idle => exact .inl ⟨rfl, by simpa [hp] using h⟩
  | wait c => exact .inr ⟨⟨c, rfl⟩, by simpa [localCommand, hp, eq_comm] using h⟩

/-- Everything a bus command can do when it answers a next state. -/
theorem busCommand_cases {i : Instr} {accept : State → Result} {k : BusAnswer → State → State} {s t : State}
    (h : busCommand i accept k s = .next t) :
    (s.phase = .idle ∧ accept s = .next t) ∨
    (∃ c, s.phase = .wait c ∧ (c ≠ encode i ∨ s.pin.answer = none) ∧ t = s) ∨
    (∃ a, s.phase = .wait (encode i) ∧ s.pin.answer = some a ∧ t = k a s) := by
  cases hp : s.phase with
  | idle => exact .inl ⟨rfl, by simpa [hp] using h⟩
  | wait c =>
    by_cases hc : c = encode i
    · cases ha : s.pin.answer with
      | none => exact .inr (.inl ⟨c, rfl, .inr rfl, by simpa [busCommand, hp, ha, eq_comm] using h⟩)
      | some a => exact .inr (.inr ⟨a, by rw [hc], rfl, by simpa [busCommand, hp, hc, ha, eq_comm] using h⟩)
    · exact .inr (.inl ⟨c, rfl, .inl hc, by simpa [busCommand, hp, hc, eq_comm] using h⟩)

/-- The two outcomes of a read's completion. -/
theorem onReadAnswer_cases (onOk : Half → State → State) (onFail : Byte → State → State) (a : BusAnswer) (s : State) :
    (a.okf = true ∧ onReadAnswer onOk onFail a s = onOk (fromBigEndian a.b0 a.b1) (s.recordAnswer (.okRead a.b0 a.b1))) ∨
    (a.okf = false ∧ onReadAnswer onOk onFail a s = onFail a.err (s.recordAnswer (.fail a.err))) := by
  cases h : a.okf <;> simp [onReadAnswer, h]

/-- The two outcomes of a write's completion. -/
theorem onWriteAnswer_cases (onOk : State → State) (onFail : Byte → State → State) (a : BusAnswer) (s : State) :
    (a.okf = true ∧ onWriteAnswer onOk onFail a s = onOk (s.recordAnswer .ok)) ∨
    (a.okf = false ∧ onWriteAnswer onOk onFail a s = onFail a.err (s.recordAnswer (.fail a.err))) := by
  cases h : a.okf <;> simp [onWriteAnswer, h]

@[simp] theorem mapNext_next (f : State → State) (s : State) : mapNext f (.next s) = .next (f s) := rfl
@[simp] theorem mapNext_refused (f : State → State) (r : Refusal) : mapNext f (.refused r) = .refused r := rfl

end Sys2Proof.Machine
end

