-- ==== Sys2Proof/Laws/PerInstr.lean ====
section
/-! SUPPORT. A fact about every command as syntax: its word is selected by the row of the opcode map (R62) that bears its
mnemonic. One lemma per constructor. -/
namespace Sys2Proof

/-- The row of `30_encoding.md` R62 with the command's mnemonic selects the command's word. -/
def Laws.EncodedRow.Statement (i : Instr) : Prop :=
  ∃ r ∈ opcodeRows, r.mnemonic = i.mnemonic ∧ r.selects (encode i) = true

/-- A packed word under a mask that spells out which bits of each field count. -/
theorem packWord_and (op mo : BitVec 4) (mz : BitVec 4) (a ma : Byte) (d md : Half) :
    packWord op a d &&& (mo ++ mz ++ ma ++ md) = packWord (op &&& mo) (a &&& ma) (d &&& md) := by
  have h1 : (op ++ 0#4) &&& (mo ++ mz) = (op &&& mo) ++ 0#4 := by rw [BitVec.and_append, BitVec.zero_and]
  have h2 : (op ++ 0#4 ++ a) &&& (mo ++ mz ++ ma) = (op &&& mo) ++ 0#4 ++ (a &&& ma) := by rw [BitVec.and_append, h1]
  exact BitVec.and_append.trans (congrArg (· ++ (d &&& md)) h2)

theorem Laws.EncodedRow.init : Laws.EncodedRow.Statement .init :=
  ⟨⟨"INIT", 0x00000000, 0xFFFFFFFF⟩, by simp [opcodeRows], rfl, by decide⟩

theorem Laws.EncodedRow.fetch (ch : Byte) : Laws.EncodedRow.Statement (.fetch ch) :=
  ⟨⟨"FETCH", 0x10000000, 0xFF00FFFF⟩, by simp [opcodeRows], rfl, by
    have := packWord_and 0x1 0xF 0xF ch 0x00 0 0xFFFF
    simpa [OpcodeRow.selects, encode, packWord] using this⟩

theorem Laws.EncodedRow.get (ch : Byte) : Laws.EncodedRow.Statement (.get ch) :=
  ⟨⟨"GET", 0x20000000, 0xFF00FFFF⟩, by simp [opcodeRows], rfl, by
    have := packWord_and 0x2 0xF 0xF ch 0x00 0 0xFFFF
    simpa [OpcodeRow.selects, encode, packWord] using this⟩

theorem Laws.EncodedRow.rd16 (reg : Byte) : Laws.EncodedRow.Statement (.rd16 reg) :=
  ⟨⟨"RD16", 0x30000000, 0xFF00FFFF⟩, by simp [opcodeRows], rfl, by
    have := packWord_and 0x3 0xF 0xF reg 0x00 0 0xFFFF
    simpa [OpcodeRow.selects, encode, packWord] using this⟩

theorem Laws.EncodedRow.wr8 (reg val : Byte) : Laws.EncodedRow.Statement (.wr8 reg val) :=
  ⟨⟨"WR8", 0x40000000, 0xFF00FF00⟩, by simp [opcodeRows], rfl, by
    have h := packWord_and 0x4 0xF 0xF reg 0x00 (0#8 ++ val) (0xFF#8 ++ 0x00#8)
    rw [BitVec.and_append] at h
    simpa [OpcodeRow.selects, encode, packWord] using h⟩

theorem Laws.EncodedRow.wr16 (reg : Byte) (val : Half) : Laws.EncodedRow.Statement (.wr16 reg val) :=
  ⟨⟨"WR16", 0x50000000, 0xFF000000⟩, by simp [opcodeRows], rfl, by
    have := packWord_and 0x5 0xF 0xF reg 0x00 val 0x0000
    simpa [OpcodeRow.selects, encode, packWord] using this⟩

theorem Laws.EncodedRow.dec (raw : Half) : Laws.EncodedRow.Statement (.dec raw) :=
  ⟨⟨"DEC", 0x60000000, 0xFFFF0000⟩, by simp [opcodeRows], rfl, by
    have := packWord_and 0x6 0xF 0xF 0 0xFF raw 0x0000
    simpa [OpcodeRow.selects, encode, packWord] using this⟩

theorem Laws.EncodedRow.enc (temp : Half) : Laws.EncodedRow.Statement (.enc temp) :=
  ⟨⟨"ENC", 0x70000000, 0xFFFF0000⟩, by simp [opcodeRows], rfl, by
    have := packWord_and 0x7 0xF 0xF 0 0xFF temp 0x0000
    simpa [OpcodeRow.selects, encode, packWord] using this⟩

theorem Laws.EncodedRow.topub (temp : Half) : Laws.EncodedRow.Statement (.topub temp) :=
  ⟨⟨"TOPUB", 0x80000000, 0xFFFF0000⟩, by simp [opcodeRows], rfl, by
    have := packWord_and 0x8 0xF 0xF 0 0xFF temp 0x0000
    simpa [OpcodeRow.selects, encode, packWord] using this⟩

end Sys2Proof
end

