-- ==== Sys2Proof/Laws/Step.lean ====
section
/-! SUPPORT. What a step can do, said once: the slot's four cases, and what `exec` answers with. -/
namespace Sys2Proof.Machine

/-- A slot with `rst = 1`. -/
theorem step_rst {s : State} (h : (nextSlot s.inputs).rst = true) : step s = .next s.sample.applyReset := by
  simp [step, h]

/-- A slot with `rst = 0`. -/
theorem step_run {s : State} (h : (nextSlot s.inputs).rst = false) : step s = runWord s.sample s.sample.currentWord := by
  simp [step, h]

/-- A slot's command word by the phase. -/
theorem currentWord_idle {s : State} (h : s.phase = .idle) : s.currentWord = s.pin.cmd := by
  simp [State.currentWord, h]

theorem currentWord_wait {s : State} {c : Word} (h : s.phase = .wait c) : s.currentWord = some c := by
  simp [State.currentWord, h]

@[simp] theorem runWord_none (s : State) : runWord s none = .next s := rfl

theorem runWord_command {s : State} {cw : Word} {i : Instr} (h : decode cw = .command i) :
    runWord s (some cw) = exec i s := by
  simp [runWord, h]

theorem runWord_reserved {s : State} {cw : Word} {why : Reserved} (h : decode cw = .reserved why) :
    runWord s (some cw) = .refused (.reservedWord why) := by
  simp [runWord, h]

/-- Everything a step can do when it answers a next state: reset; an idle slot without a command; or the slot's command. -/
theorem step_cases {s t : State} (h : step s = .next t) :
    ((nextSlot s.inputs).rst = true ∧ t = s.sample.applyReset) ∨
    ((nextSlot s.inputs).rst = false ∧ s.phase = .idle ∧ (nextSlot s.inputs).cmd = none ∧ t = s.sample) ∨
    ((nextSlot s.inputs).rst = false ∧ ∃ cw i, s.sample.currentWord = some cw ∧ decode cw = .command i ∧
      exec i s.sample = .next t) := by
  cases hr : (nextSlot s.inputs).rst with
  | true => exact .inl ⟨rfl, by simpa [step_rst hr, eq_comm] using h⟩
  | false =>
    rw [step_run hr] at h
    cases hw : s.sample.currentWord with
    | none =>
      have hp : s.phase = .idle := by
        cases hp : s.phase with
        | idle => rfl
        | wait c => simp [State.currentWord, hp] at hw
      have hc : (nextSlot s.inputs).cmd = none := by simpa [State.currentWord, hp] using hw
      exact .inr (.inl ⟨rfl, hp, hc, by simpa [hw, eq_comm] using h⟩)
    | some cw =>
      cases hd : decode cw with
      | command i =>
        exact .inr (.inr ⟨rfl, cw, i, rfl, hd, by simpa [hw, runWord_command hd] using h⟩)
      | reserved why => simp [hw, runWord_reserved hd] at h

/-- A completion at acceptance of an idle block: the phase stays `IDLE`, so only the response changes. -/
theorem respond_idle {s : State} (h : s.phase = .idle) (r : Option Response) :
    { s with phase := .idle, rsp := r } = { s with rsp := r } := by
  rw [← h]

/-- The next states a command reaches without a bus answer: nothing happens (held at the port, or unanswered); or, in `IDLE`,
it is answered at once, with no request; or its one request goes out. -/
inductive Early (i : Instr) (s : State) : State → Prop where
  | held {c : Word} (hp : s.phase = .wait c) (hc : c ≠ encode i ∨ s.pin.answer = none ∨ requestOf i = none) : Early i s s
  | responds (r : Response) (hp : s.phase = .idle) (ha : admitted i s.drv = true)
      (hf : responseFields i r.status = some (r.r0.isSome, r.r1.isSome))
      (hq : requestOf i = none ∨ (i = .init ∧ s.pin.busReady = false)) : Early i s { s with rsp := some r }
  | issues (q : BusRequest) (hp : s.phase = .idle) (ha : admitted i s.drv = true) (hr : i = .init → s.pin.busReady = true)
      (hq : requestOf i = some q) : Early i s (s.issue (encode i) q)

/-- How a bus command's request ends: the answer as recorded, and the response. -/
inductive Completion (i : Instr) (a : BusAnswer) : BusResult → Response → Prop where
  | read (r : Response) (hi : (∃ ch, i = .fetch ch) ∨ ∃ reg, i = .rd16 reg) (hok : a.okf = true) (hs : r.status = .ok)
      (hf : responseFields i r.status = some (r.r0.isSome, r.r1.isSome)) : Completion i a (.okRead a.b0 a.b1) r
  | written (r : Response) (hi : i = .init ∨ (∃ reg val, i = .wr8 reg val) ∨ ∃ reg val, i = .wr16 reg val)
      (hok : a.okf = true) (hs : r.status = .ok)
      (hf : responseFields i r.status = some (r.r0.isSome, r.r1.isSome)) : Completion i a .ok r
  | failed (r : Response) (hok : a.okf = false) (hs : r.status ≠ .ok)
      (hf : responseFields i r.status = some (r.r0.isSome, r.r1.isSome)) : Completion i a (.fail a.err) r

/-- The state after a bus answer: the history entry, the response, and what only `INIT` and `FETCH` write. -/
def completed (i : Instr) (a : BusAnswer) (b : BusResult) (r : Response) (s : State) : State :=
  { s with
    drv := if i = .init ∧ a.okf = true then .initialized else s.drv
    raw := if (∃ ch, i = .fetch ch) ∧ a.okf = true then fromBigEndian a.b0 a.b1 else s.raw
    phase := .idle
    hist := answerLast b s.hist
    rsp := some r }

/-- Everything `exec` can do when it answers a next state. -/
theorem exec_cases {i : Instr} {s t : State} (h : exec i s = .next t) :
    Early i s t ∨
    ∃ a b r, s.phase = .wait (encode i) ∧ s.pin.answer = some a ∧ Completion i a b r ∧ t = completed i a b r s := by
  cases i with
  | init =>
    rcases busCommand_cases h with ⟨hp, ha⟩ | ⟨c, hp, hc, rfl⟩ | ⟨a, hp, ha, rfl⟩
    · left
      cases hd : s.drv with
      | initialized => simp [acceptInit, hd] at ha
      | uninit =>
        cases hb : s.pin.busReady with
        | false =>
          simp only [acceptInit, hd, hb, Bool.false_eq_true, if_false, Host.Outcome.next.injEq] at ha
          rw [← ha, State.raise, respond_idle hp]
          exact .responds _ hp (by rw [hd]; rfl) rfl (.inr ⟨rfl, hb⟩)
        | true =>
          simp only [acceptInit, hd, hb, if_true, Host.Outcome.next.injEq] at ha
          rw [← ha]
          exact .issues _ hp (by rw [hd]; rfl) (fun _ => hb) rfl
    · exact .inl (.held hp (by tauto))
    · right
      rcases onWriteAnswer_cases (fun s => { s with drv := .initialized }.respondOk none none)
        (fun _ s => s.raise .initializationFailed none) a s with ⟨hok, he⟩ | ⟨hok, he⟩ <;> rw [he]
      · exact ⟨a, _, _, hp, ha, .written ⟨.ok, none, none⟩ (.inl rfl) hok rfl rfl,
          by simp [completed, State.respondOk, State.recordAnswer, hok]⟩
      · exact ⟨a, _, _, hp, ha, .failed ⟨.initializationFailed, none, none⟩ hok (by simp) rfl,
          by simp [completed, State.raise, State.recordAnswer, hok]⟩
  | fetch ch =>
    rcases busCommand_cases h with ⟨hp, ha⟩ | ⟨c, hp, hc, rfl⟩ | ⟨a, hp, ha, rfl⟩
    · left
      cases hd : s.drv with
      | uninit => simp [acceptFetch, hd] at ha
      | initialized =>
        cases hb : fetchSupports ch with
        | false =>
          simp only [acceptFetch, hd, hb, Bool.false_eq_true, if_false, Host.Outcome.next.injEq] at ha
          rw [← ha, State.raise, respond_idle hp]
          exact .responds _ hp (by rw [hd]; rfl) rfl (.inl (by simp [requestOf, hb]))
        | true =>
          simp only [acceptFetch, hd, hb, if_true, Host.Outcome.next.injEq] at ha
          rw [← ha]
          exact .issues _ hp (by rw [hd]; rfl) (by simp) (by simp [requestOf, hb])
    · exact .inl (.held hp (by tauto))
    · right
      rcases onReadAnswer_cases (fun v s => { s with raw := v }.respondOk none none)
        (fun _ s => s.raise .fetchFailed none) a s with ⟨hok, he⟩ | ⟨hok, he⟩ <;> rw [he]
      · exact ⟨a, _, _, hp, ha, .read ⟨.ok, none, none⟩ (.inl ⟨ch, rfl⟩) hok rfl rfl,
          by simp [completed, State.respondOk, State.recordAnswer, hok]⟩
      · exact ⟨a, _, _, hp, ha, .failed ⟨.fetchFailed, none, none⟩ hok (by simp) rfl,
          by simp [completed, State.raise, State.recordAnswer, hok]⟩
  | get ch =>
    left
    rcases localCommand_cases h with ⟨hp, ha⟩ | ⟨⟨c, hp⟩, rfl⟩
    · cases hd : s.drv with
      | uninit => simp [acceptGet, hd] at ha
      | initialized =>
        cases hb : getSupports ch with
        | false =>
          simp only [acceptGet, hd, hb, Bool.false_eq_true, if_false, Host.Outcome.next.injEq] at ha
          rw [← ha, State.raise, respond_idle hp]
          exact .responds _ hp (by rw [hd]; rfl) rfl (.inl rfl)
        | true =>
          simp only [acceptGet, hd, hb, if_true, Host.Outcome.next.injEq] at ha
          rw [← ha, State.respondPublic, State.respondOk, respond_idle hp]
          exact .responds _ hp (by rw [hd]; rfl) rfl (.inl rfl)
    · exact .held hp (.inr (.inr rfl))
  | rd16 reg =>
    unfold exec execRd16 at h
    rcases busCommand_cases h with ⟨hp, ha⟩ | ⟨c, hp, hc, rfl⟩ | ⟨a, hp, ha, rfl⟩
    · simp only [Host.Outcome.next.injEq] at ha
      rw [← ha]
      exact .inl (.issues _ hp rfl (by simp) rfl)
    · exact .inl (.held hp (by tauto))
    · right
      rcases onReadAnswer_cases (fun v s => s.respondOk (some (zext32 v)) none) raiseTransportError a s
        with ⟨hok, he⟩ | ⟨hok, he⟩ <;> rw [he]
      · exact ⟨a, _, _, hp, ha, .read ⟨.ok, some _, none⟩ (.inr ⟨reg, rfl⟩) hok rfl rfl,
          by simp [completed, State.respondOk, State.recordAnswer]; rfl⟩
      · exact ⟨a, _, _, hp, ha, .failed ⟨.transportError, some _, none⟩ hok (by simp) rfl,
          by simp [completed, raiseTransportError, State.raise, State.recordAnswer]; rfl⟩
  | wr8 reg val =>
    unfold exec execWr8 at h
    rcases busCommand_cases h with ⟨hp, ha⟩ | ⟨c, hp, hc, rfl⟩ | ⟨a, hp, ha, rfl⟩
    · simp only [Host.Outcome.next.injEq] at ha
      rw [← ha]
      exact .inl (.issues _ hp rfl (by simp) rfl)
    · exact .inl (.held hp (by tauto))
    · right
      rcases onWriteAnswer_cases (fun s => s.respondOk none none) raiseTransportError a s
        with ⟨hok, he⟩ | ⟨hok, he⟩ <;> rw [he]
      · exact ⟨a, _, _, hp, ha, .written ⟨.ok, none, none⟩ (.inr (.inl ⟨reg, val, rfl⟩)) hok rfl rfl,
          by simp [completed, State.respondOk, State.recordAnswer]⟩
      · exact ⟨a, _, _, hp, ha, .failed ⟨.transportError, some _, none⟩ hok (by simp) rfl,
          by simp [completed, raiseTransportError, State.raise, State.recordAnswer]; rfl⟩
  | wr16 reg val =>
    unfold exec execWr16 at h
    rcases busCommand_cases h with ⟨hp, ha⟩ | ⟨c, hp, hc, rfl⟩ | ⟨a, hp, ha, rfl⟩
    · simp only [Host.Outcome.next.injEq] at ha
      rw [← ha]
      exact .inl (.issues _ hp rfl (by simp) rfl)
    · exact .inl (.held hp (by tauto))
    · right
      rcases onWriteAnswer_cases (fun s => s.respondOk none none) raiseTransportError a s
        with ⟨hok, he⟩ | ⟨hok, he⟩ <;> rw [he]
      · exact ⟨a, _, _, hp, ha, .written ⟨.ok, none, none⟩ (.inr (.inr ⟨reg, val, rfl⟩)) hok rfl rfl,
          by simp [completed, State.respondOk, State.recordAnswer]⟩
      · exact ⟨a, _, _, hp, ha, .failed ⟨.transportError, some _, none⟩ hok (by simp) rfl,
          by simp [completed, raiseTransportError, State.raise, State.recordAnswer]; rfl⟩
  | dec raw =>
    left
    unfold exec execDec at h
    rcases localCommand_cases h with ⟨hp, ha⟩ | ⟨⟨c, hp⟩, rfl⟩
    · simp only [Host.Outcome.next.injEq] at ha
      rw [← ha, State.respondOk, respond_idle hp]
      exact .responds _ hp rfl rfl (.inl rfl)
    · exact .held hp (.inr (.inr rfl))
  | enc temp =>
    left
    unfold exec execEnc at h
    rcases localCommand_cases h with ⟨hp, ha⟩ | ⟨⟨c, hp⟩, rfl⟩
    · simp only [Host.Outcome.next.injEq] at ha
      rw [← ha, State.respondOk, respond_idle hp]
      exact .responds _ hp rfl rfl (.inl rfl)
    · exact .held hp (.inr (.inr rfl))
  | topub temp =>
    left
    unfold exec execTopub at h
    rcases localCommand_cases h with ⟨hp, ha⟩ | ⟨⟨c, hp⟩, rfl⟩
    · simp only [Host.Outcome.next.injEq] at ha
      rw [← ha, State.respondPublic, State.respondOk, respond_idle hp]
      exact .responds _ hp rfl rfl (.inl rfl)
    · exact .held hp (.inr (.inr rfl))

/-! What each command is in an idle block. -/

section Idle
variable {s : State} (h : s.phase = .idle)
include h

theorem execInit_idle : exec .init s = acceptInit s := busCommand_idle h
theorem execFetch_idle (ch : Byte) : exec (.fetch ch) s = acceptFetch ch s := busCommand_idle h
theorem execGet_idle (ch : Byte) : exec (.get ch) s = acceptGet ch s := localCommand_idle h

theorem execRd16_idle (reg : Byte) :
    exec (.rd16 reg) s = .next (s.issue (encode (.rd16 reg)) (readRequest reg)) := by
  rw [exec, execRd16, busCommand_idle h]

theorem execWr8_idle (reg val : Byte) :
    exec (.wr8 reg val) s = .next (s.issue (encode (.wr8 reg val)) (write8Request reg val)) := by
  rw [exec, execWr8, busCommand_idle h]

theorem execWr16_idle (reg : Byte) (val : Half) :
    exec (.wr16 reg val) s = .next (s.issue (encode (.wr16 reg val)) (write16Request reg val)) := by
  rw [exec, execWr16, busCommand_idle h]

theorem execDec_idle (raw : Half) : exec (.dec raw) s = .next (s.respondOk (some (tc32 (decodeRaw raw))) none) := by
  rw [exec, execDec, localCommand_idle h]

theorem execEnc_idle (temp : Half) :
    exec (.enc temp) s = .next (s.respondOk (some (zext32 (encodeTemp (signedOperand temp)))) none) := by
  rw [exec, execEnc, localCommand_idle h]

theorem execTopub_idle (temp : Half) : exec (.topub temp) s = .next (s.respondPublic (signedOperand temp)) := by
  rw [exec, execTopub, localCommand_idle h]

end Idle

/-- A command in a waiting block answers a next state, whatever it is (R15). -/
theorem exec_wait_next {i : Instr} {s : State} {c : Word} (h : s.phase = .wait c) : ∃ t, exec i s = .next t := by
  cases i <;>
    simp only [exec, execInit, execFetch, execGet, execRd16, execWr8, execWr16, execDec, execEnc, execTopub, busCommand,
      localCommand, h] <;>
    repeat (first | exact ⟨_, rfl⟩ | split)

/-- A command in a waiting block without an answer changes nothing (R15, R160). -/
theorem exec_unanswered {i : Instr} {s : State} {c : Word} (h : s.phase = .wait c) (ha : s.pin.answer = none) :
    exec i s = .next s := by
  obtain ⟨t, ht⟩ := exec_wait_next (i := i) h
  rcases exec_cases ht with he | ⟨a, b, r, _, hx, _⟩
  · cases he with
    | held => exact ht
    | responds r hp => simp [h] at hp
    | issues q hp => simp [h] at hp
  · simp [ha] at hx

/-- One step of a run. -/
theorem run_succ {s t : State} (h : step s = .next t) (n : Nat) : Sys2Proof.core.run (n + 1) s = Sys2Proof.core.run n t := by
  have hc : Sys2Proof.core.step s = .next t := h
  simp only [Host.Core.run, hc]

end Sys2Proof.Machine
end

