-- ==== Sys2Proof/Tests/Slice0.lean ====
section
/-! SUPPORT. The model's own tests: expected values are those of spec/95_test_vectors.md and the worked examples of the rules,
named in each comment; and, for every statement with hypotheses, a witness that meets them together. -/
namespace Sys2Proof.Tests
open Sys2Proof.Machine

/-- The next state of a result, if it is one. -/
def nextOf : Result → Option State
  | .next s => some s
  | .fault _ => none
  | .refused _ => none

/-- The refusal of a result, if it is one. -/
def refusalOf : Result → Option Refusal
  | .next _ => none
  | .fault _ => none
  | .refused r => some r

/-- An idle block. -/
def idle (d : Drv) (raw : Half) : State := { State.reset with drv := d, raw := raw }

/-- An idle block with a slot to come in which `cw` stands on the command port, `bus_ready` as given. -/
def presented (d : Drv) (raw : Half) (ready : Bool) (cw : Word) : State :=
  { idle d raw with inputs := [{ rst := false, cmd := some cw, busReady := ready, answer := none }] }

/-- A block whose command `i` is in flight with the request `q`; the present slot brings the answer `a`. -/
def inFlight (i : Instr) (q : BusRequest) (d : Drv) (raw : Half) (a : Option BusAnswer) : State :=
  { idle d raw with phase := .wait (encode i), hist := [⟨q, none⟩], pin := { Inputs.quiet with answer := a } }

/-- The same before the slot: the answer is still to come. -/
def answering (i : Instr) (q : BusRequest) (d : Drv) (raw : Half) (a : Option BusAnswer) : State :=
  { inFlight i q d raw none with inputs := [{ Inputs.quiet with answer := a }] }

def ok (b0 b1 : Byte) : Option BusAnswer := some ⟨true, b0, b1, 0⟩
def fail (e : Byte) : Option BusAnswer := some ⟨false, 0, 0, e⟩

/-- The response a step gives. -/
def response (s : State) : Option (Option Response) := (nextOf (step s)).map (·.rsp)

/-! ### Decoding: the words of 95_test_vectors.md section 2.1, written bit by bit from the layout of R60 -/

theorem test_decode_init : decode 0b0000_0000_00000000_0000000000000000 = .command .init := by decide
theorem test_decode_fetch : decode 0b0001_0000_11111111_0000000000000000 = .command (.fetch 0xFF) := by decide
theorem test_decode_get : decode 0b0010_0000_00000001_0000000000000000 = .command (.get 0x01) := by decide
theorem test_decode_rd16 : decode 0b0011_0000_00000101_0000000000000000 = .command (.rd16 0x05) := by decide
theorem test_decode_wr8 : decode 0b0100_0000_00001000_0000000011111111 = .command (.wr8 0x08 0xFF) := by decide
theorem test_decode_wr16 : decode 0b0101_0000_00000001_0001001000110100 = .command (.wr16 0x01 0x1234) := by decide
theorem test_decode_dec : decode 0b0110_0000_00000000_0001000000000000 = .command (.dec 0x1000) := by decide
theorem test_decode_enc : decode 0b0111_0000_00000000_1111111001111000 = .command (.enc 0xFE78) := by decide
theorem test_decode_topub : decode 0b1000_0000_00000000_1111111001111000 = .command (.topub 0xFE78) := by decide
theorem test_decode_reserved_opcode : decode 0xF0000000 = .reserved (.opcode 0xF) := by decide
theorem test_decode_reserved_zero_fields :
    decode 0x0F000000 = .reserved (.field .z) ∧ decode 0x80FF0000 = .reserved (.field .a) ∧
    decode 0x30050001 = .reserved (.field .d) ∧ decode 0x4008FF00 = .reserved (.field .dHigh) := by decide
theorem test_table_word : decodeTableWord 32 0x50011234 = some (.wr16 0x01 0x1234) ∧ decodeTableWord 32 0x90000000 = none := by
  decide

/-! ### WellFormed: an ill-formed term for each check, refused (R62, R63, R75) -/

theorem test_word_checks :
    wordWellFormed 0x00000000 = true ∧ wordWellFormed 0x90000000 = false ∧ wordWellFormed 0x01000000 = false ∧
    wordWellFormed 0x00010000 = false ∧ wordWellFormed 0x10010001 = false ∧ wordWellFormed 0x20010001 = false ∧
    wordWellFormed 0x30050001 = false ∧ wordWellFormed 0x40080103 = false ∧ wordWellFormed 0x60010000 = false ∧
    wordWellFormed 0x70010000 = false ∧ wordWellFormed 0x80FF0000 = false := by decide
theorem test_asm_checks :
    (Asm.fetch 256).wellFormed = false ∧ (Asm.get 256).wellFormed = false ∧ (Asm.rd16 256).wellFormed = false ∧
    (Asm.wr8 256 0).wellFormed = false ∧ (Asm.wr8 0 256).wellFormed = false ∧ (Asm.wr16 256 0).wellFormed = false ∧
    (Asm.wr16 0 65536).wellFormed = false ∧ (Asm.dec 65536).wellFormed = false ∧ (Asm.enc 32768).wellFormed = false ∧
    (Asm.enc (-32769)).wellFormed = false ∧ (Asm.topub 32768).wellFormed = false ∧ (Asm.topub (-32769)).wellFormed = false ∧
    (Asm.enc (-32768)).wellFormed = true ∧ (Asm.wr16 255 65535).wellFormed = true := by decide

/-! ### The textual syntax (R75 to R77) -/

theorem test_assemble_numbers_and_comments :
    assemble "INIT\nRD16  0x05 ; the temperature\nWR8 0x08, 3\n  ENC -392" =
      some [0x00000000, 0x30050000, 0x40080003, 0x7000FE78] := by decide
theorem test_assemble_names :
    assemble "sample_fetch AMBIENT\nchannel_get 1\nWR16 0x01,0x1234\nFETCH ALL\n" =
      some [0x10010000, 0x20010000, 0x50011234, 0x10000000] := by decide
theorem test_assemble_errors :
    assemble "FETCH 256" = none ∧ assemble "RD16 -1" = none ∧ assemble "WR8 1 2" = none ∧ assemble "NOP" = none := by decide

/-! ### The codec (95_test_vectors.md sections 2.2, 2.3) -/

theorem test_dec_minimum : response (presented .uninit 0 false 0x60001000) = some (some ⟨.ok, some 0xFFFFF000, none⟩) := by decide
theorem test_dec_not_sign_magnitude :
    response (presented .uninit 0 false 0x60001001) = some (some ⟨.ok, some 0xFFFFF001, none⟩) := by decide
theorem test_enc_negative : response (presented .uninit 0 false 0x7000FE78) = some (some ⟨.ok, some 0x00001E78, none⟩) := by decide
theorem test_enc_out_of_range : response (presented .uninit 0 false 0x7000EFFF) = some (some ⟨.ok, some 0x00001FFF, none⟩) := by
  decide
theorem test_topub_truncates :
    response (presented .uninit 0 false 0x8000FFEF) = some (some ⟨.ok, some 0xFFFFFFFF, some 0xFFFF0BDC⟩) := by decide
theorem test_topub_largest :
    response (presented .uninit 0 false 0x80007FFF) = some (some ⟨.ok, some 0x000007FF, some 0x000E4E1C⟩) := by decide

/-! ### The transport (95_test_vectors.md section 2.4) -/

theorem test_rd16_first_byte_is_high :
    response (answering (.rd16 0x05) (readRequest 0x05) .uninit 0 (ok 0x88 0x01)) = some (some ⟨.ok, some 0x00008801, none⟩) := by
  decide
theorem test_rd16_failure :
    response (answering (.rd16 0x05) (readRequest 0x05) .uninit 0 (fail 0x2A)) =
      some (some ⟨.transportError, some 0x0000002A, none⟩) := by decide
theorem test_wr8_request :
    (nextOf (step (presented .uninit 0 false 0x40080003))).map (fun t => t.breq.map (·.wbytes)) = some (some [0x08, 0x03]) := by
  decide
theorem test_wr8_failure :
    response (answering (.wr8 0x08 1) (write8Request 0x08 1) .uninit 0 (fail 0x01)) =
      some (some ⟨.transportError, some 0x00000001, none⟩) := by decide
theorem test_wr16_request :
    (nextOf (step (presented .uninit 0 false 0x50010003))).map (fun t => t.breq.map (·.wbytes)) =
      some (some [0x01, 0x00, 0x03]) := by decide
theorem test_wr16_success :
    response (answering (.wr16 0x01 0x1234) (write16Request 0x01 0x1234) .uninit 0 (ok 0 0)) = some (some ⟨.ok, none, none⟩) := by
  decide

/-! ### The Sensor State (95_test_vectors.md section 2.5) -/

theorem test_init_not_ready :
    (nextOf (step (presented .uninit 0 false 0x00000000))).map (fun t => (t.rsp, t.drv, t.hist)) =
      some (some ⟨.deviceNotReady, none, none⟩, .uninit, []) := by decide
theorem test_init_success :
    (nextOf (step (answering .init (write8Request 0x08 resolutionByte) .uninit 0 (ok 0 0)))).map (fun t => (t.rsp, t.drv)) =
      some (some ⟨.ok, none, none⟩, .initialized) := by decide
theorem test_fetch_keeps_flag_bits :
    (nextOf (step (answering (.fetch 0x00) (readRequest 0x05) .initialized 0x1234 (ok 0xFE 0x6F)))).map (fun t => (t.rsp, t.raw)) =
      some (some ⟨.ok, none, none⟩, 0xFE6F) := by decide
theorem test_fetch_failure_keeps_raw :
    (nextOf (step (answering (.fetch 0x01) (readRequest 0x05) .initialized 0xC1A4 (fail 0x02)))).map (fun t => (t.rsp, t.raw)) =
      some (some ⟨.fetchFailed, none, none⟩, 0xC1A4) := by decide
theorem test_get_negative :
    response (presented .initialized 0xFE6F false 0x20010000) = some (some ⟨.ok, some 0xFFFFFFE7, some 0xFFFF0BDC⟩) := by decide
theorem test_get_all_is_unsupported :
    response (presented .initialized 0xFE6F false 0x20000000) = some (some ⟨.unsupportedChannel, none, none⟩) := by decide
theorem test_refusals :
    refusalOf (step (presented .uninit 0 true 0x10010000)) = some .fetchWhenUninit ∧
    refusalOf (step (presented .uninit 0 true 0x20010000)) = some .getWhenUninit ∧
    refusalOf (step (presented .initialized 0 true 0x00000000)) = some .initWhenInitialized ∧
    refusalOf (step (presented .uninit 0 true 0x40080103)) = some (.reservedWord (.field .dHigh)) := by decide

/-! ### The step -/

theorem test_fetch_word_of_reset_runs :
    (nextOf (step (State.reset.withFetchWord 32 0x60000010))).map (·.rsp) = some (some ⟨.ok, some 16, none⟩) := by decide
theorem test_reset_in_flight :
    nextOf (step { inFlight (.fetch 1) (readRequest 5) .initialized 7 none with inputs := [{ Inputs.quiet with rst := true }] }) =
      some { State.reset with pin := { Inputs.quiet with rst := true } } := rfl

/-! ### Witnesses: for every statement with hypotheses, a state and operands that meet them together, clause by clause -/

theorem witness_EncodeOfDecodeIsTheWord : decode 0x8000FE78 = .command (.topub 0xFE78) := by decide
theorem witness_RowsPartitionTheCommandWords :
    (decode 0x50FFFFFF = .command (.wr16 0xFF 0xFFFF) ∧ (⟨"WR16", 0x50000000, 0xFF000000⟩ : OpcodeRow) ∈ opcodeRows) ∧
    decode 0x9FFFFFFF = .reserved (.opcode 9) := by decide

def reservedPresented : State := presented .uninit 0 true 0x90000000
theorem witness_ReservedWordsAreRefused :
    reservedPresented.phase = .idle ∧ (nextSlot reservedPresented.inputs).rst = false ∧
    (nextSlot reservedPresented.inputs).cmd = some 0x90000000 ∧ 9 ≤ (BitVec.extractLsb' 28 4 (0x90000000 : Word)).toNat := by decide
theorem witness_ReservedWordsAreRefused_zero_bit : MustBeZeroBitSet 0x40080103 := by
  unfold MustBeZeroBitSet
  decide

def decPresented : State := presented .initialized 0xFFFF true 0x6000FFFF
theorem witness_StepRunsThePresentedCommand :
    decPresented.phase = .idle ∧ (nextSlot decPresented.inputs).rst = false ∧
    (nextSlot decPresented.inputs).cmd = some 0x6000FFFF ∧ decode 0x6000FFFF = .command (.dec 0xFFFF) := by decide

def readAnswered : State := answering (.rd16 0xFF) (readRequest 0xFF) .uninit 0 (ok 0x01 0x88)
def readFailed : State := answering (.rd16 0xFF) (readRequest 0xFF) .uninit 0 (fail 0xFF)
def readUnanswered : State := inFlight (.rd16 0xFF) (readRequest 0xFF) .uninit 0 none
theorem witness_StepContinuesTheCommandInFlight :
    readAnswered.phase = .wait 0x30FF0000 ∧ (nextSlot readAnswered.inputs).rst = false ∧
    decode 0x30FF0000 = .command (.rd16 0xFF) := by decide
theorem witness_ResetFromEveryState :
    (nextSlot ({ readAnswered with inputs := [{ Inputs.quiet with rst := true }] } : State).inputs).rst = true := by decide
theorem witness_IdleSlotWithoutCommandChangesNothing :
    State.reset.phase = .idle ∧ (nextSlot State.reset.inputs).rst = false ∧ (nextSlot State.reset.inputs).cmd = none := by decide
theorem witness_StrayAnswerIsIgnored : decPresented.phase = .idle := by decide
theorem witness_PortCommandIsIgnoredWhileWaiting : readAnswered.phase = .wait 0x30FF0000 := by decide
theorem witness_UnansweredRequestHangs :
    (readUnanswered.phase = .wait 0x30FF0000 ∧
      (nextSlot ({ readUnanswered with inputs := [{ Inputs.quiet with rst := true }] } : State).inputs).rst = true) ∧
    ({ readUnanswered with inputs := [Inputs.quiet] } : State).phase = .wait 0x30FF0000 ∧
    decode 0x30FF0000 = .command (.rd16 0xFF) ∧
    ∀ p ∈ ({ readUnanswered with inputs := [Inputs.quiet] } : State).inputs, p.rst = false ∧ p.answer = none := by decide
theorem witness_BusReadyMattersOnlyToInit :
    (decPresented.phase = .idle → (nextSlot decPresented.inputs).cmd ≠ some 0x00000000) ∧
    (readAnswered.phase = .idle → (nextSlot readAnswered.inputs).cmd ≠ some 0x00000000) := by decide

theorem witness_idle_clauses : (idle .uninit 0).phase = .idle ∧ (idle .initialized 0xFFFF).phase = .idle := by decide
theorem witness_Rd16ReadsTheRegister :
    (inFlight (.rd16 0xFF) (readRequest 0xFF) .uninit 0 (ok 1 2)).phase = .wait (0x3#4 ++ 0x0#4 ++ 0xFF#8 ++ 0x0000#16) ∧
    (inFlight (.rd16 0xFF) (readRequest 0xFF) .uninit 0 (ok 1 2)).hist = [] ++ [⟨readRequest 0xFF, none⟩] ∧
    (inFlight (.rd16 0xFF) (readRequest 0xFF) .uninit 0 (ok 1 2)).pin.answer = some ⟨true, 1, 2, 0⟩ ∧
    (inFlight (.rd16 0xFF) (readRequest 0xFF) .uninit 0 (fail 3)).phase = .wait (0x3#4 ++ 0x0#4 ++ 0xFF#8 ++ 0x0000#16) ∧
    (inFlight (.rd16 0xFF) (readRequest 0xFF) .uninit 0 (fail 3)).hist = [] ++ [⟨readRequest 0xFF, none⟩] ∧
    (inFlight (.rd16 0xFF) (readRequest 0xFF) .uninit 0 (fail 3)).pin.answer = some ⟨false, 0, 0, 3⟩ :=
  ⟨rfl, rfl, rfl, rfl, rfl, rfl⟩
theorem witness_Wr8WritesOneByte :
    (inFlight (.wr8 0xFF 0xFF) (write8Request 0xFF 0xFF) .uninit 0 (ok 1 2)).phase =
      .wait (0x4#4 ++ 0x0#4 ++ 0xFF#8 ++ (0x00#8 ++ 0xFF#8)) ∧
    (inFlight (.wr8 0xFF 0xFF) (write8Request 0xFF 0xFF) .uninit 0 (ok 1 2)).hist = [] ++ [⟨write8Request 0xFF 0xFF, none⟩] ∧
    (inFlight (.wr8 0xFF 0xFF) (write8Request 0xFF 0xFF) .uninit 0 (ok 1 2)).pin.answer = some ⟨true, 1, 2, 0⟩ ∧
    (inFlight (.wr8 0xFF 0xFF) (write8Request 0xFF 0xFF) .uninit 0 (fail 3)).pin.answer = some ⟨false, 0, 0, 3⟩ :=
  ⟨rfl, rfl, rfl, rfl⟩
theorem witness_Wr16WritesTwoBytesBigEndian :
    (inFlight (.wr16 0xFF 0xABCD) (write16Request 0xFF 0xABCD) .uninit 0 (ok 1 2)).phase =
      .wait (0x5#4 ++ 0x0#4 ++ 0xFF#8 ++ (0xAB#8 ++ 0xCD#8)) ∧
    (inFlight (.wr16 0xFF 0xABCD) (write16Request 0xFF 0xABCD) .uninit 0 (ok 1 2)).hist =
      [] ++ [⟨write16Request 0xFF 0xABCD, none⟩] ∧
    (inFlight (.wr16 0xFF 0xABCD) (write16Request 0xFF 0xABCD) .uninit 0 (ok 1 2)).pin.answer = some ⟨true, 1, 2, 0⟩ ∧
    (inFlight (.wr16 0xFF 0xABCD) (write16Request 0xFF 0xABCD) .uninit 0 (fail 3)).pin.answer = some ⟨false, 0, 0, 3⟩ :=
  ⟨rfl, rfl, rfl, rfl⟩
theorem witness_TransportIsStateBlind :
    (∃ reg, Instr.rd16 0xFF = .rd16 reg) ∧ (∃ reg val, Instr.wr8 0 0xFF = .wr8 reg val) ∧
    ∃ reg val, Instr.wr16 0xFF 0xFFFF = .wr16 reg val :=
  ⟨⟨_, rfl⟩, ⟨_, _, rfl⟩, ⟨_, _, rfl⟩⟩

theorem witness_DecodeBySignBit : (0xF000 : Half).getLsbD 12 = true ∧ (0xEFFF : Half).getLsbD 12 = false := by decide
theorem witness_CodecRoundTrips : (-4096 : Int) ≤ -4096 ∧ (-4096 : Int) ≤ 4095 ∧ (4095 : Int) ≤ 4095 := by decide
theorem witness_EncodeOutsideTheCodecRange : ((4096 : Int) < 0 ↔ (0 : Int) < 0) ∧ (4096 : Int) % 4096 = 0 % 4096 := by decide
theorem witness_ToPublicIsExactAndSigned : (0 : Int) ≤ 32767 ∧ (-32768 : Int) ≤ 0 := by decide

theorem witness_InitWritesTheResolution :
    ((idle .uninit 0).phase = .idle ∧ (idle .uninit 0).drv = .uninit ∧ (idle .uninit 0).pin.busReady = false) ∧
    ((idle .initialized 0).phase = .idle ∧ (idle .initialized 0).drv = .initialized) ∧
    (({ idle .uninit 0 with pin := { Inputs.quiet with busReady := true } } : State).phase = .idle ∧
      ({ idle .uninit 0 with pin := { Inputs.quiet with busReady := true } } : State).drv = .uninit ∧
      ({ idle .uninit 0 with pin := { Inputs.quiet with busReady := true } } : State).pin.busReady = true) ∧
    ((inFlight .init (write8Request 8 resolutionByte) .uninit 0 (ok 0 0)).phase = .wait 0x00000000 ∧
      (inFlight .init (write8Request 8 resolutionByte) .uninit 0 (ok 0 0)).hist = [] ++ [⟨write8Request 8 resolutionByte, none⟩] ∧
      (inFlight .init (write8Request 8 resolutionByte) .uninit 0 (ok 0 0)).pin.answer = some ⟨true, 0, 0, 0⟩ ∧
      (inFlight .init (write8Request 8 resolutionByte) .uninit 0 (fail 7)).pin.answer = some ⟨false, 0, 0, 7⟩) :=
  ⟨⟨rfl, rfl, rfl⟩, ⟨rfl, rfl⟩, ⟨rfl, rfl, rfl⟩, rfl, rfl, rfl, rfl⟩
theorem witness_FetchStoresTheRawValue :
    ((idle .uninit 0).phase = .idle ∧ (idle .uninit 0).drv = .uninit) ∧
    ((idle .initialized 0).phase = .idle ∧ (idle .initialized 0).drv = .initialized ∧ (0x02 : Byte) ≠ 0x00 ∧
      (0x02 : Byte) ≠ 0x01 ∧ (0xFF : Byte) ≠ 0x00 ∧ (0xFF : Byte) ≠ 0x01) ∧
    ((inFlight (.fetch 0) (readRequest 5) .initialized 7 (ok 1 0x88)).phase = .wait (0x1#4 ++ 0x0#4 ++ 0x00#8 ++ 0x0000#16) ∧
      (inFlight (.fetch 0) (readRequest 5) .initialized 7 (ok 1 0x88)).hist = [] ++ [⟨readRequest 5, none⟩] ∧
      (inFlight (.fetch 0) (readRequest 5) .initialized 7 (ok 1 0x88)).pin.answer = some ⟨true, 1, 0x88, 0⟩ ∧
      (inFlight (.fetch 0) (readRequest 5) .initialized 7 (fail 2)).pin.answer = some ⟨false, 0, 0, 2⟩) :=
  ⟨by decide, by decide, rfl, rfl, rfl, rfl⟩
theorem witness_GetAnswersTheDecodedTemperature :
    ((idle .uninit 0).phase = .idle ∧ (idle .uninit 0).drv = .uninit) ∧
    (idle .initialized 0).phase = .idle ∧ (idle .initialized 0).drv = .initialized ∧ (0x00 : Byte) ≠ 0x01 ∧
    (0x02 : Byte) ≠ 0x01 ∧ (idle .initialized 0).raw = 0x0000 := by decide
theorem witness_AdmissionByDriverState :
    (idle .uninit 0).phase = .idle ∧ (idle .uninit 0).drv = .uninit ∧ (idle .initialized 0).phase = .idle ∧
    (idle .initialized 0).drv = .initialized := by decide
theorem witness_FetchedValueIsWhatGetDecodes :
    (inFlight (.fetch 1) (readRequest 5) .initialized 0 (ok 0xFF 0xFF)).drv = .initialized ∧
    (inFlight (.fetch 1) (readRequest 5) .initialized 0 (ok 0xFF 0xFF)).phase = .wait (0x1#4 ++ 0x0#4 ++ 0x01#8 ++ 0x0000#16) ∧
    (inFlight (.fetch 1) (readRequest 5) .initialized 0 (ok 0xFF 0xFF)).pin.answer = some ⟨true, 0xFF, 0xFF, 0⟩ :=
  ⟨rfl, rfl, rfl⟩
theorem witness_SensorCommandsIssueTransportRequests :
    ({ idle .uninit 0 with pin := { Inputs.quiet with busReady := true } } : State).phase = .idle ∧
    ({ idle .uninit 0 with pin := { Inputs.quiet with busReady := true } } : State).drv = .uninit ∧
    ({ idle .uninit 0 with pin := { Inputs.quiet with busReady := true } } : State).pin.busReady = true ∧
    (idle .initialized 0).phase = .idle ∧ (idle .initialized 0).drv = .initialized ∧
    (Config.chAll = Config.chAll ∨ Config.chAll = Config.chAmbient) := by decide

/-- A state with a request outstanding meets the invariant. -/
theorem readAnswered_inv : Inv readAnswered where
  legal := by
    intro e he
    rw [List.mem_singleton.1 (show e ∈ [(⟨readRequest 0xFF, none⟩ : HistEntry)] from he)]
    exact .inl ⟨_, rfl⟩
  agrees := ⟨.rd16 0xFF, readRequest 0xFF, [], by decide, rfl, rfl, rfl, fun _ h => nomatch h⟩
  rawZero := fun _ => rfl
/-- An idle state with an answered request in its history, and a command presented, meets the invariant. -/
def decAfterRead : State := { decPresented with hist := [⟨readRequest 0xFF, some (.okRead 1 2)⟩] }
theorem decAfterRead_inv : Inv decAfterRead where
  legal := by
    intro e he
    rw [List.mem_singleton.1 (show e ∈ [(⟨readRequest 0xFF, some (.okRead 1 2)⟩ : HistEntry)] from he)]
    exact .inl ⟨_, rfl⟩
  agrees := by
    intro e he
    rw [List.mem_singleton.1 (show e ∈ [(⟨readRequest 0xFF, some (.okRead 1 2)⟩ : HistEntry)] from he)]
    exact ⟨_, rfl, trivial⟩
  rawZero := fun h => by cases h
theorem witness_StepKeepsInv : Inv readAnswered ∧ ∃ t, step readAnswered = .next t := ⟨readAnswered_inv, _, rfl⟩
theorem witness_RunsStopOnlyAtReservedOrUnadmittedCommands : Inv decAfterRead := decAfterRead_inv

def fetchAnswered : State := answering (.fetch 1) (readRequest 5) .initialized 0 (ok 0xFF 0xFF)
theorem witness_RawIsWrittenOnlyByFetch :
    (∃ t, step fetchAnswered = .next t) ∧ (nextSlot fetchAnswered.inputs).rst = false := ⟨⟨_, rfl⟩, rfl⟩
def initAnswered : State := answering .init (write8Request 8 resolutionByte) .uninit 0 (ok 0 0)
theorem witness_DrvIsSetOnlyByInit :
    (∃ t, step initAnswered = .next t) ∧ (nextSlot initAnswered.inputs).rst = false := ⟨⟨_, rfl⟩, rfl⟩
theorem witness_ErrorsChangeNothing :
    ∃ t, step readFailed = .next t ∧ t.rsp = some ⟨.transportError, some 0xFF, none⟩ ∧ Status.transportError ≠ .ok :=
  ⟨_, rfl, by decide, by decide⟩
theorem witness_ResponseFieldsByCommandAndStatus :
    (idle .initialized 0).rsp = none ∧
    ∃ t, exec (.get 0x01) (idle .initialized 0) = .next t ∧ t.rsp = some ⟨.ok, some 0, some 0⟩ :=
  ⟨rfl, _, rfl, by decide⟩
theorem witness_OneResponsePerCompletion :
    Inv readAnswered ∧ (∃ t, step readAnswered = .next t) ∧ (nextSlot readAnswered.inputs).rst = false :=
  ⟨readAnswered_inv, ⟨_, rfl⟩, rfl⟩
theorem witness_EachCommandIssuesItsOneRequest :
    (readUnanswered.breq = none ∧ (∃ t, exec (.rd16 0xFF) readUnanswered = .next t) ∧ readUnanswered.phase ≠ .idle) ∧
    ((idle .uninit 0).breq = none ∧ (∃ t, exec .init (idle .uninit 0) = .next t) ∧ (idle .uninit 0).phase = .idle ∧
      (idle .uninit 0).pin.busReady = false) ∧
    ((∃ t, exec (.rd16 0xFF) (idle .uninit 0) = .next t) ∧
      (Instr.rd16 0xFF = .init → (idle .uninit 0).pin.busReady = true)) :=
  ⟨⟨rfl, ⟨_, rfl⟩, fun h => by cases h⟩, ⟨rfl, ⟨_, rfl⟩, rfl, rfl⟩, ⟨_, rfl⟩, fun h => by cases h⟩
theorem witness_HistoryGrowsInCommandOrder :
    Inv decAfterRead ∧ (∃ t, step decAfterRead = .next t) ∧ (nextSlot decAfterRead.inputs).rst = false :=
  ⟨decAfterRead_inv, ⟨_, rfl⟩, rfl⟩
theorem witness_FlagBitsOfRawNeverMatter : (0xE188 : Half) &&& 0x1FFF = (idle .initialized 0x0188).raw &&& 0x1FFF := by decide
theorem witness_OperandRangesOfTheTextualSyntax :
    expandAsm (.enc (-32768)) = some [.enc 0x8000] ∧ expandAsm (.topub 32767) = some [.topub 0x7FFF] ∧
    expandAsm (.enc 32768) = none := by decide

end Sys2Proof.Tests
end

section
/-! PROOFS, the state: what the shared facts of `Laws/` still need for the statements of `10_state.md`. -/
namespace Sys2Proof.Machine

/-! ### Words in flight -/

/-- The word a command waits under is decoded as that command again (R77). -/
@[simp] theorem decode_encode (i : Instr) : decode (encode i) = .command i := by
  cases i <;> simp [decode, encode]

/-- The word of `INIT` is `0x00000000` and no other. -/
theorem eq_zero_of_decode_init {cw : Word} (h : decode cw = .command .init) : cw = 0 := by
  have hf := (decode_eq_command_iff cw .init).1 h
  simp only [reduceCtorEq, and_false, or_false] at hf
  obtain ⟨hop, hz, ha, hd, -⟩ := hf
  rw [← packWord_fields hz, hop, ha, hd]
  rfl

/-! ### One slot -/

/-- In `IDLE` a slot runs the word on the port. -/
theorem step_idle {s : State} (hp : s.phase = .idle) (hr : (nextSlot s.inputs).rst = false) :
    step s = runWord s.sample (nextSlot s.inputs).cmd := by
  rw [step_run hr, currentWord_idle (s := s.sample) hp, sample_pin]

/-- In `WAIT(c)` a slot runs `c`. -/
theorem step_wait {s : State} {c : Word} (hp : s.phase = .wait c) (hr : (nextSlot s.inputs).rst = false) :
    step s = runWord s.sample (some c) := by
  rw [step_run hr, currentWord_wait (s := s.sample) hp]

/-- A command in flight that the bus answers completes, whatever the command (R15). -/
theorem exec_answered {i : Instr} {s : State} {a : BusAnswer} (hq : requestOf i ≠ none)
    (hp : s.phase = .wait (encode i)) (ha : s.pin.answer = some a) :
    ∃ b r, Completion i a b r ∧ exec i s = .next (completed i a b r s) := by
  obtain ⟨t, ht⟩ := exec_wait_next (i := i) hp
  rcases exec_cases ht with he | ⟨a', b, r, -, ha', hc, rfl⟩
  · cases he with
    | held hp' hc =>
      rcases hc with hc | hc | hc
      · exact absurd (Phase.wait.inj (hp.symm.trans hp')).symm hc
      · simp [ha] at hc
      · exact absurd hc hq
    | responds r hp' => simp [hp] at hp'
    | issues q hp' => simp [hp] at hp'
  · obtain rfl : a = a' := Option.some.inj (ha.symm.trans ha')
    exact ⟨b, r, hc, ht⟩

/-- The slot in which the bus answers the command in flight completes it. -/
theorem step_answered {i : Instr} {s : State} {a : BusAnswer} (hq : requestOf i ≠ none)
    (hp : s.phase = .wait (encode i)) (hr : (nextSlot s.inputs).rst = false) (ha : (nextSlot s.inputs).answer = some a) :
    ∃ b r, Completion i a b r ∧ step s = .next (completed i a b r s.sample) := by
  rw [step_wait hp hr, runWord_command (decode_encode i)]
  exact exec_answered (s := s.sample) hq hp ha

/-! ### What a command keeps -/

/-- Without a bus answer no command writes `DRV`. -/
theorem Early.drv_eq {i : Instr} {s t : State} (h : Early i s t) : t.drv = s.drv := by
  cases h <;> rfl

/-- Without a bus answer no command writes `RAW`. -/
theorem Early.raw_eq {i : Instr} {s t : State} (h : Early i s t) : t.raw = s.raw := by
  cases h <;> rfl

/-- After a bus answer `DRV` is `INITIALIZED` if it was, or if the answer is the success of an `INIT` (R21). -/
theorem completed_drv_initialized {i : Instr} {a : BusAnswer} {b : BusResult} {r : Response} {s : State} :
    (completed i a b r s).drv = .initialized ↔ s.drv = .initialized ∨ (i = .init ∧ a.okf = true) := by
  simp only [completed]
  split_ifs with h <;> simp [h]

/-- The response of a successful `FETCH` carries nothing but its status (R69). -/
theorem Completion.fetch_ok {ch : Byte} {a : BusAnswer} {b : BusResult} {r : Response}
    (h : Completion (.fetch ch) a b r) (hok : a.okf = true) : r = ⟨.ok, none, none⟩ := by
  obtain ⟨st, r0, r1⟩ := r
  cases h with
  | read _ _ _ hs hf =>
    obtain rfl : st = .ok := hs
    obtain ⟨rfl, rfl⟩ : r0 = none ∧ r1 = none := by simpa [responseFields] using hf
    rfl
  | written _ hi => simp at hi
  | failed _ hko => simp [hok] at hko

/-! ### The codec on the low 13 bits -/

/-- `decode` is the low 13 bits read as one two's-complement number (R113). -/
theorem decodeRaw_eq_toInt (raw : Half) : decodeRaw raw = (raw.extractLsb' 0 13).toInt := by
  have hn : (raw.extractLsb' 0 13).toNat = raw.toNat % 8192 := by simp
  rw [decodeRaw, xor_ones_toNat, magField_toNat, BitVec.toInt_eq_toNat_cond, hn]
  by_cases hs : signField raw = true
  · have := (signField_iff raw).1 hs
    rw [if_pos hs, if_neg (by omega)]
    omega
  · have := mt (signField_iff raw).2 hs
    rw [if_neg hs, if_pos (by omega)]
    omega

/-- Bits 15:13 are not read by `decode` (R101). -/
theorem decodeRaw_eq_of_mask_eq {r r' : Half} (h : r &&& 0x1FFF = r' &&& 0x1FFF) : decodeRaw r = decodeRaw r' := by
  have low13 (v : Half) : v.extractLsb' 0 13 = (v &&& 0x1FFF).extractLsb' 0 13 := by
    apply BitVec.eq_of_toNat_eq
    simp only [BitVec.extractLsb'_toNat, BitVec.toNat_and]
    rw [show (0x1FFF : Half).toNat = 2 ^ 13 - 1 from rfl, Nat.and_two_pow_sub_one_eq_mod]
    simp
  rw [decodeRaw_eq_toInt, decodeRaw_eq_toInt, low13 r, low13 r', h]

/-- The millionths of `to_public` by the remainder of the truncating division (R109). -/
theorem fracMillionths_eq_tmod (t : Int) : fracMillionths t = 62500 * t.tmod 16 := by
  rw [fracMillionths_eq, intPart, Int.tmod_def, Int.mul_comm (t.tdiv 16)]

end Sys2Proof.Machine
end

section
/-! PROOFS, the invariant of a run (O37, O38). -/
namespace Sys2Proof.Machine

/-! ### A request and its answer -/

/-- Every request of the table has one of the three forms (R44, R72). -/
theorem requestOf_legal {i : Instr} {q : BusRequest} (h : requestOf i = some q) : q.Legal := by
  cases i with
  | init => exact .inr (.inl ⟨_, _, (Option.some.inj h).symm⟩)
  | fetch ch =>
    simp only [requestOf, Option.ite_none_right_eq_some, Option.some.injEq] at h
    exact .inl ⟨_, h.2.symm⟩
  | rd16 reg => exact .inl ⟨_, (Option.some.inj h).symm⟩
  | wr8 reg val => exact .inr (.inl ⟨_, _, (Option.some.inj h).symm⟩)
  | wr16 reg val => exact .inr (.inr ⟨_, _, (Option.some.inj h).symm⟩)
  | get | dec | enc | topub => cases h

/-- `FETCH` and `RD16` read (R72). -/
theorem requestOf_kind_read {i : Instr} {q : BusRequest} (hi : (∃ ch, i = .fetch ch) ∨ ∃ reg, i = .rd16 reg)
    (h : requestOf i = some q) : q.kind = .writeRead := by
  rcases hi with ⟨ch, rfl⟩ | ⟨reg, rfl⟩
  · simp only [requestOf, Option.ite_none_right_eq_some, Option.some.injEq] at h
    rw [← h.2]
    rfl
  · rw [← Option.some.inj h]
    rfl

/-- `INIT`, `WR8` and `WR16` write (R72). -/
theorem requestOf_kind_write {i : Instr} {q : BusRequest}
    (hi : i = .init ∨ (∃ reg val, i = .wr8 reg val) ∨ ∃ reg val, i = .wr16 reg val) (h : requestOf i = some q) :
    q.kind = .write := by
  rcases hi with rfl | ⟨reg, val, rfl⟩ | ⟨reg, val, rfl⟩ <;> rw [← Option.some.inj h] <;> rfl

/-- A completion records an answer of the kind its request expects (R40). -/
theorem Completion.fits {i : Instr} {a : BusAnswer} {b : BusResult} {r : Response} {q : BusRequest}
    (h : Completion i a b r) (hq : requestOf i = some q) : b.fits q := by
  cases h with
  | read _ hi => simp [BusResult.fits, requestOf_kind_read hi hq]
  | written _ hi => simp [BusResult.fits, requestOf_kind_write hi hq]
  | failed => simp [BusResult.fits]

/-! ### The phase and the history -/

/-- With the command in flight known, the agreement in `WAIT` speaks of that command. -/
theorem PhaseAgrees.of_wait {i : Instr} {d : Drv} {h : List HistEntry} (ha : PhaseAgrees (.wait (encode i)) d h) :
    admitted i d = true ∧ ∃ q past, requestOf i = some q ∧ h = past ++ [⟨q, none⟩] ∧ ∀ e ∈ past, e.Answered := by
  obtain ⟨i', q, past, hd, hadm, hq, hh, hpast⟩ := ha
  obtain rfl : i = i' := by simpa using hd
  exact ⟨hadm, q, past, hq, hh, hpast⟩

/-- Recording the answer of the command in flight keeps the requests legal. -/
theorem answerLast_legal {b : BusResult} {h : List HistEntry} (hl : ∀ e ∈ h, e.request.Legal) :
    ∀ e ∈ answerLast b h, e.request.Legal := by
  intro e he
  have hm : e.request ∈ h.map (·.request) := answerLast_requests b h ▸ List.mem_map_of_mem he
  obtain ⟨e', he', heq⟩ := List.mem_map.1 hm
  exact heq ▸ hl e' he'

/-- The invariant speaks of `DRV`, `RAW`, `PHASE` and `HIST` only: two states that agree there meet it together. -/
theorem Inv.congr {s t : State} (h : Inv s) (hd : t.drv = s.drv) (hr : t.raw = s.raw) (hp : t.phase = s.phase)
    (hh : t.hist = s.hist) : Inv t where
  legal := hh ▸ h.legal
  agrees := by rw [hp, hd, hh]; exact h.agrees
  rawZero := by rw [hd, hr]; exact h.rawZero

/-- The values of a reset meet the invariant (R22). -/
theorem Inv.of_reset_values {s : State} (hp : s.phase = .idle) (hr : s.raw = 0) (hh : s.hist = []) : Inv s where
  legal := by simp [hh]
  agrees := by simp [hp, hh, PhaseAgrees]
  rawZero _ := hr

/-- An admitted command that issues its request keeps the invariant. -/
theorem Inv.issue {s : State} {i : Instr} {q : BusRequest} (h : Inv s) (hp : s.phase = .idle)
    (ha : admitted i s.drv = true) (hq : requestOf i = some q) : Inv (s.issue (encode i) q) where
  legal := by
    intro e he
    rcases List.mem_append.1 he with he | he
    · exact h.legal e he
    · rw [List.mem_singleton.1 he]
      exact requestOf_legal hq
  agrees := by
    have hpast : PhaseAgrees .idle s.drv s.hist := hp ▸ h.agrees
    exact ⟨i, q, s.hist, decode_encode i, ha, hq, rfl, hpast⟩
  rawZero := h.rawZero

/-- Without a bus answer a command keeps the invariant. -/
theorem Inv.early {s t : State} {i : Instr} (h : Inv s) (he : Early i s t) : Inv t := by
  cases he with
  | held => exact h
  | responds => exact h.congr rfl rfl rfl rfl
  | issues q hp ha _ hq => exact h.issue hp ha hq

/-- A bus answer to the command in flight keeps the invariant: the newest request gets an answer of its kind, and `RAW` is
written only by `FETCH`, which is not admitted before initialisation (R128). -/
theorem Inv.completed {s : State} {i : Instr} {a : BusAnswer} {b : BusResult} {r : Response} (h : Inv s)
    (hp : s.phase = .wait (encode i)) (hc : Completion i a b r) : Inv (completed i a b r s) := by
  obtain ⟨hadm, q, past, hq, hh, hpast⟩ := (hp ▸ h.agrees : PhaseAgrees (.wait (encode i)) s.drv s.hist).of_wait
  refine ⟨answerLast_legal h.legal, ?_, ?_⟩
  · have hnew : (⟨q, some b⟩ : HistEntry).Answered := ⟨b, rfl, hc.fits hq⟩
    intro e he
    simp only [Machine.completed, hh, answerLast_append, List.mem_append, List.mem_singleton] at he
    rcases he with he | rfl
    · exact hpast e he
    · exact hnew
  · intro hd
    have hnot : ¬ (s.drv = .initialized ∨ (i = .init ∧ a.okf = true)) := by
      rw [← completed_drv_initialized (b := b) (r := r), hd]
      simp
    have hu : s.drv = .uninit := by
      cases hs : s.drv with
      | uninit => rfl
      | initialized => exact absurd (.inl hs) hnot
    have hfetch : ¬ ∃ ch, i = .fetch ch := by
      rintro ⟨ch, rfl⟩
      simp [hu, admitted] at hadm
    simpa [Machine.completed, hfetch] using h.rawZero hu

/-- Every command keeps the invariant. -/
theorem exec_keeps_inv {i : Instr} {s t : State} (h : Inv s) (he : exec i s = .next t) : Inv t := by
  rcases exec_cases he with he | ⟨a, b, r, hp, -, hc, rfl⟩
  · exact h.early he
  · exact h.completed hp hc

/-- Settles O37: the invariant holds of the reset values in any state that has them. -/
theorem invHoldsAtReset : Obligations.InvHoldsAtReset :=
  Inv.of_reset_values rfl rfl rfl

/-- Settles O38, by what a step can do: a reset, an empty slot, or one command. -/
theorem stepKeepsInv : Obligations.StepKeepsInv := by
  intro s t h hst
  have hsample : Inv s.sample := h.congr rfl rfl rfl rfl
  rcases step_cases hst with ⟨-, rfl⟩ | ⟨-, -, -, rfl⟩ | ⟨-, cw, i, -, -, he⟩
  · exact Inv.of_reset_values rfl rfl rfl
  · exact hsample
  · exact exec_keeps_inv hsample he

end Sys2Proof.Machine
end

section
/-! PROOFS, what the block never reads (O14, O16, O46, O47). A function `f` on states hides part of a state. When every write
of the block respects `f`, and two states agree up to `f` and on what a command reads, the command answers the same from
both, up to `f`. Each statement is one such `f`. -/
namespace Sys2Proof.Machine

/-- The operation `g` takes states that agree up to `f` to states that agree up to `f`. -/
def Respects (f g : State → State) : Prop := ∀ ⦃s t : State⦄, f s = f t → f (g s) = f (g t)

/-- It is enough that `f` first makes no difference to `g`, up to `f`. -/
theorem Respects.of_hidden_first {f g : State → State} (h : ∀ s, f (g (f s)) = f (g s)) : Respects f g := by
  intro s t hst
  rw [← h s, hst, h t]

theorem Respects.comp {f g k : State → State} (hg : Respects f g) (hk : Respects f k) : Respects f (fun s => g (k s)) :=
  fun _ _ hst => hg (hk hst)

/-- Every write of the block to its state respects `f`. -/
structure View (f : State → State) : Prop where
  issue : ∀ c q, Respects f (fun s => s.issue c q)
  record : ∀ r, Respects f (fun s => s.recordAnswer r)
  respondOk : ∀ r0 r1, Respects f (fun s => s.respondOk r0 r1)
  raise : ∀ e info, Respects f (fun s => s.raise e info)
  setDrv : ∀ d, Respects f (fun s => { s with drv := d })
  setRaw : ∀ v, Respects f (fun s => { s with raw := v })
  reset : Respects f State.applyReset

/-- The two states agree on all that the command `i` reads: `PHASE`, `DRV`, what `decode` makes of `RAW`, in `WAIT` the answer
port, and at acceptance of `INIT` `bus_ready` (R19). -/
structure SameReads (i : Instr) (s t : State) : Prop where
  phase : s.phase = t.phase
  drv : s.drv = t.drv
  decoded : decodeRaw s.raw = decodeRaw t.raw
  answer : s.phase ≠ .idle → s.pin.answer = t.pin.answer
  ready : i = .init → s.phase = .idle → s.pin.busReady = t.pin.busReady

/-! ### The shared operations, seen through a view -/

section Congruence
variable {f : State → State} {s t : State}

theorem mapNext_next_congr {g : State → State} (hg : Respects f g) (hst : f s = f t) :
    mapNext f (.next (g s)) = mapNext f (.next (g t)) :=
  congrArg Host.Outcome.next (hg hst)

theorem onReadAnswer_respects (hf : View f) {onOk : Half → State → State} {onFail : Byte → State → State}
    (hok : ∀ v, Respects f (onOk v)) (hfail : ∀ e, Respects f (onFail e)) (a : BusAnswer) :
    Respects f (onReadAnswer onOk onFail a) := by
  intro s t hst
  unfold onReadAnswer
  split
  · exact hok _ (hf.record _ hst)
  · exact hfail _ (hf.record _ hst)

theorem onWriteAnswer_respects (hf : View f) {onOk : State → State} {onFail : Byte → State → State}
    (hok : Respects f onOk) (hfail : ∀ e, Respects f (onFail e)) (a : BusAnswer) :
    Respects f (onWriteAnswer onOk onFail a) := by
  intro s t hst
  unfold onWriteAnswer
  split
  · exact hok (hf.record _ hst)
  · exact hfail _ (hf.record _ hst)

theorem localCommand_congr {accept : State → Result} (hst : f s = f t) (hp : s.phase = t.phase)
    (hacc : mapNext f (accept s) = mapNext f (accept t)) :
    mapNext f (localCommand accept s) = mapNext f (localCommand accept t) := by
  cases hs : s.phase with
  | idle => rwa [localCommand_idle hs, localCommand_idle (hp ▸ hs)]
  | wait c => rw [localCommand_wait hs, localCommand_wait (hp ▸ hs), mapNext_next, mapNext_next, hst]

theorem busCommand_congr {i : Instr} {accept : State → Result} {k : BusAnswer → State → State} (hst : f s = f t)
    (hr : SameReads i s t) (hacc : s.phase = .idle → mapNext f (accept s) = mapNext f (accept t))
    (hk : ∀ a, Respects f (k a)) :
    mapNext f (busCommand i accept k s) = mapNext f (busCommand i accept k t) := by
  cases hs : s.phase with
  | idle =>
    rw [busCommand_idle hs, busCommand_idle (hr.phase ▸ hs)]
    exact hacc hs
  | wait c =>
    simp only [busCommand, hs, ← hr.phase, ← hr.answer (by simp [hs])]
    split_ifs
    · cases s.pin.answer with
      | none => exact congrArg Host.Outcome.next hst
      | some a => exact mapNext_next_congr (hk a) hst
    · exact congrArg Host.Outcome.next hst

/-! ### The commands, seen through a view -/

theorem acceptInit_congr (hf : View f) (hst : f s = f t) (hd : s.drv = t.drv) (hb : s.pin.busReady = t.pin.busReady) :
    mapNext f (acceptInit s) = mapNext f (acceptInit t) := by
  unfold acceptInit
  rw [← hd, ← hb]
  cases s.drv with
  | initialized => rfl
  | uninit =>
    dsimp only
    split_ifs
    · exact mapNext_next_congr (hf.issue _ _) hst
    · exact mapNext_next_congr (hf.raise _ _) hst

theorem acceptFetch_congr (hf : View f) (hst : f s = f t) (hd : s.drv = t.drv) (ch : Byte) :
    mapNext f (acceptFetch ch s) = mapNext f (acceptFetch ch t) := by
  unfold acceptFetch
  rw [← hd]
  cases s.drv with
  | uninit => rfl
  | initialized =>
    dsimp only
    split_ifs
    · exact mapNext_next_congr (hf.issue _ _) hst
    · exact mapNext_next_congr (hf.raise _ _) hst

theorem acceptGet_congr (hf : View f) (hst : f s = f t) (hd : s.drv = t.drv)
    (hr : decodeRaw s.raw = decodeRaw t.raw) (ch : Byte) :
    mapNext f (acceptGet ch s) = mapNext f (acceptGet ch t) := by
  unfold acceptGet
  rw [← hd, ← hr]
  cases s.drv with
  | uninit => rfl
  | initialized =>
    dsimp only
    split_ifs
    · exact mapNext_next_congr (hf.respondOk _ _) hst
    · exact mapNext_next_congr (hf.raise _ _) hst

/-- A command answers the same from states that agree up to a view and on what it reads. -/
theorem exec_congr (hf : View f) {i : Instr} (hst : f s = f t) (hr : SameReads i s t) :
    mapNext f (exec i s) = mapNext f (exec i t) := by
  cases i with
  | init =>
    refine busCommand_congr hst hr (fun hp => acceptInit_congr hf hst hr.drv (hr.ready rfl hp)) fun a => ?_
    exact onWriteAnswer_respects hf ((hf.respondOk none none).comp (hf.setDrv .initialized))
      (fun _ => hf.raise _ none) a
  | fetch ch =>
    refine busCommand_congr hst hr (fun _ => acceptFetch_congr hf hst hr.drv ch) fun a => ?_
    exact onReadAnswer_respects hf (fun v => (hf.respondOk none none).comp (hf.setRaw v)) (fun _ => hf.raise _ none) a
  | get ch => exact localCommand_congr hst hr.phase (acceptGet_congr hf hst hr.drv hr.decoded ch)
  | rd16 reg =>
    unfold exec execRd16
    refine busCommand_congr hst hr (fun _ => ?_) fun a => ?_
    · exact mapNext_next_congr (hf.issue _ _) hst
    · exact onReadAnswer_respects hf (fun v => hf.respondOk _ none) (fun e => hf.raise _ _) a
  | wr8 reg val =>
    unfold exec execWr8
    refine busCommand_congr hst hr (fun _ => ?_) fun a => ?_
    · exact mapNext_next_congr (hf.issue _ _) hst
    · exact onWriteAnswer_respects hf (hf.respondOk none none) (fun e => hf.raise _ _) a
  | wr16 reg val =>
    unfold exec execWr16
    refine busCommand_congr hst hr (fun _ => ?_) fun a => ?_
    · exact mapNext_next_congr (hf.issue _ _) hst
    · exact onWriteAnswer_respects hf (hf.respondOk none none) (fun e => hf.raise _ _) a
  | dec raw =>
    unfold exec execDec
    refine localCommand_congr hst hr.phase ?_
    exact mapNext_next_congr (hf.respondOk _ none) hst
  | enc temp =>
    unfold exec execEnc
    refine localCommand_congr hst hr.phase ?_
    exact mapNext_next_congr (hf.respondOk _ none) hst
  | topub temp =>
    unfold exec execTopub
    refine localCommand_congr hst hr.phase ?_
    exact mapNext_next_congr (hf.respondOk _ _) hst

/-- A slot gives the same from states whose sampled states agree up to a view, on `rst`, on the word to run and on what its
command reads. -/
theorem step_congr (hf : View f) (hst : f s.sample = f t.sample)
    (hrst : (nextSlot s.inputs).rst = (nextSlot t.inputs).rst)
    (hw : s.sample.currentWord = t.sample.currentWord)
    (hr : ∀ cw i, s.sample.currentWord = some cw → decode cw = .command i → SameReads i s.sample t.sample) :
    mapNext f (step s) = mapNext f (step t) := by
  cases hs : (nextSlot s.inputs).rst with
  | true =>
    rw [step_rst hs, step_rst (hrst ▸ hs)]
    exact mapNext_next_congr hf.reset hst
  | false =>
    rw [step_run hs, step_run (hrst ▸ hs), ← hw]
    cases hc : s.sample.currentWord with
    | none => exact congrArg Host.Outcome.next hst
    | some cw =>
      cases hd : decode cw with
      | command i =>
        rw [runWord_command hd, runWord_command hd]
        exact exec_congr hf hst (hr cw i hc hd)
      | reserved why => rw [runWord_reserved hd, runWord_reserved hd, mapNext_refused]

end Congruence

/-! ### The four views -/

/-- The state without the flag bits `RAW[15:13]`. -/
def hideRawFlags (t : State) : State := { t with raw := t.raw &&& 0x1FFF }

/-- The state without its bus history. -/
def hideHist (t : State) : State := { t with hist := [] }

/-- The state without the sampled command port. -/
def hideCmd (t : State) : State := { t with pin := { t.pin with cmd := none } }

/-- The state without the sampled `bus_ready`. -/
def hideBusReady (t : State) : State := { t with pin := { t.pin with busReady := false } }

theorem hideRawFlags_view : View hideRawFlags where
  issue _ _ := .of_hidden_first fun _ => by simp [hideRawFlags, State.issue, BitVec.and_assoc]
  record _ := .of_hidden_first fun _ => by simp [hideRawFlags, State.recordAnswer, BitVec.and_assoc]
  respondOk _ _ := .of_hidden_first fun _ => by simp [hideRawFlags, State.respondOk, BitVec.and_assoc]
  raise _ _ := .of_hidden_first fun _ => by simp [hideRawFlags, State.raise, BitVec.and_assoc]
  setDrv _ := .of_hidden_first fun _ => by simp [hideRawFlags, BitVec.and_assoc]
  setRaw _ := .of_hidden_first fun _ => rfl
  reset := .of_hidden_first fun _ => rfl

theorem hideHist_view : View hideHist where
  issue _ _ := .of_hidden_first fun _ => rfl
  record _ := .of_hidden_first fun _ => rfl
  respondOk _ _ := .of_hidden_first fun _ => rfl
  raise _ _ := .of_hidden_first fun _ => rfl
  setDrv _ := .of_hidden_first fun _ => rfl
  setRaw _ := .of_hidden_first fun _ => rfl
  reset := .of_hidden_first fun _ => rfl

theorem hideCmd_view : View hideCmd where
  issue _ _ := .of_hidden_first fun _ => rfl
  record _ := .of_hidden_first fun _ => rfl
  respondOk _ _ := .of_hidden_first fun _ => rfl
  raise _ _ := .of_hidden_first fun _ => rfl
  setDrv _ := .of_hidden_first fun _ => rfl
  setRaw _ := .of_hidden_first fun _ => rfl
  reset := .of_hidden_first fun _ => rfl

theorem hideBusReady_view : View hideBusReady where
  issue _ _ := .of_hidden_first fun _ => rfl
  record _ := .of_hidden_first fun _ => rfl
  respondOk _ _ := .of_hidden_first fun _ => rfl
  raise _ _ := .of_hidden_first fun _ => rfl
  setDrv _ := .of_hidden_first fun _ => rfl
  setRaw _ := .of_hidden_first fun _ => rfl
  reset := .of_hidden_first fun _ => rfl

/-! ### The statements -/

/-- Settles O46: a command reads `RAW` only through `decode`, which does not read bits 15:13. -/
theorem flagBitsOfRawNeverMatter : Obligations.FlagBitsOfRawNeverMatter := by
  intro s r hr
  have hst : hideRawFlags ({ s with raw := r } : State).sample = hideRawFlags s.sample :=
    congrArg (fun v => { s.sample with raw := v }) hr
  exact step_congr hideRawFlags_view hst rfl rfl fun _ _ _ _ =>
    { phase := rfl, drv := rfl, decoded := decodeRaw_eq_of_mask_eq hr, answer := fun _ => rfl, ready := fun _ _ => rfl }

/-- Settles O47: the history is among nothing a command reads. -/
theorem historyIsNeverRead : Obligations.HistoryIsNeverRead := by
  intro s h
  exact step_congr hideHist_view rfl rfl rfl fun _ _ _ _ =>
    { phase := rfl, drv := rfl, decoded := rfl, answer := fun _ => rfl, ready := fun _ _ => rfl }

/-- Settles O14: in `WAIT(c)` the word to run is `c`, and no command reads the command port. -/
theorem portCommandIsIgnoredWhileWaiting : Obligations.PortCommandIsIgnoredWhileWaiting := by
  intro s c p ps cmd hp
  have hw (q : Inputs) : ({ s with inputs := q :: ps } : State).sample.currentWord = some c := currentWord_wait hp
  exact step_congr hideCmd_view rfl rfl ((hw _).trans (hw _).symm) fun _ _ _ _ =>
    { phase := rfl, drv := rfl, decoded := rfl, answer := fun _ => rfl, ready := fun _ _ => rfl }

/-- Settles O16: only `INIT` at acceptance reads `bus_ready`, and the hypothesis leaves that slot out. -/
theorem busReadyMattersOnlyToInit : Obligations.BusReadyMattersOnlyToInit := by
  intro s p ps b hno
  refine step_congr hideBusReady_view rfl rfl rfl fun cw i hcw hd =>
    { phase := rfl, drv := rfl, decoded := rfl, answer := fun _ => rfl, ready := ?_ }
  rintro rfl hp
  have hcmd : p.cmd = some cw := (currentWord_idle hp).symm.trans hcw
  exact absurd (eq_zero_of_decode_init hd ▸ hcmd) (hno hp)

end Sys2Proof.Machine
end

section
/-! PROOFS, the step in `IDLE` and in `WAIT(c)`, and what writes `RAW` and `DRV` (O8, O9, O11, O12, O35, O39, O40). -/
namespace Sys2Proof.Machine

/-- Settles O8: the word an idle block runs is the one on the port. -/
theorem stepRunsThePresentedCommand : Obligations.StepRunsThePresentedCommand := by
  intro s cw i hp hr hc hd
  rw [step_idle hp hr, hc, runWord_command hd]
  rfl

/-- Settles O9: the word a waiting block runs is the one in flight. -/
theorem stepContinuesTheCommandInFlight : Obligations.StepContinuesTheCommandInFlight := by
  intro s cw i hp hr hd
  rw [step_wait hp hr, runWord_command hd]
  rfl

/-- Settles O11, by the definition of the reset state. -/
theorem resetValues : Obligations.ResetValues := ⟨rfl, rfl, rfl, rfl⟩

/-- Settles O12: an idle block without a word on the port has nothing to run after sampling. -/
theorem idleSlotWithoutCommandChangesNothing : Obligations.IdleSlotWithoutCommandChangesNothing := by
  intro s hp hr hc
  rw [step_idle hp hr, hc, runWord_none]
  rfl

/-- Settles O39, by the ways a command ends: only the completion of a successful `FETCH` writes `RAW`. -/
theorem rawIsWrittenOnlyByFetch : Obligations.RawIsWrittenOnlyByFetch := by
  intro s t hst hrst
  rcases step_cases hst with ⟨hr, -⟩ | ⟨-, -, -, rfl⟩ | ⟨-, cw, i, -, -, he⟩
  · simp [hrst] at hr
  · exact .inl rfl
  rcases exec_cases he with he | ⟨a, b, r, hp, ha, hc, rfl⟩
  · exact .inl he.raw_eq
  by_cases hf : (∃ ch, i = .fetch ch) ∧ a.okf = true
  · obtain ⟨⟨ch, rfl⟩, hok⟩ := hf
    refine .inr ⟨ch, a.b0, a.b1, a.err, hp, ?_, ?_, rfl, ?_⟩
    · rw [← hok]
      exact ha
    · simp [completed, hok, fromBigEndian]
    · simp [completed, hc.fetch_ok hok]
  · exact .inl (if_neg hf)

/-- Settles O40: by the ways a command ends, only an answered `INIT` sets `DRV`, and nothing but reset clears it; and the slot
that brings a success to a waiting `INIT` completes it. -/
theorem drvIsSetOnlyByInit : Obligations.DrvIsSetOnlyByInit := by
  intro s t hst hrst
  constructor
  · intro ht
    rcases step_cases hst with ⟨-, rfl⟩ | ⟨-, -, -, rfl⟩ | ⟨-, cw, i, -, -, he⟩
    · cases ht
    · exact .inl ht
    rcases exec_cases he with he | ⟨a, b, r, hp, ha, -, rfl⟩
    · exact .inl (he.drv_eq ▸ ht)
    rcases completed_drv_initialized.1 ht with hs | ⟨rfl, hok⟩
    · exact .inl hs
    · exact .inr ⟨hp, a.b0, a.b1, a.err, hok ▸ ha⟩
  · rintro (hs | ⟨hp, b0, b1, e, ha⟩)
    · rcases step_cases hst with ⟨hr, -⟩ | ⟨-, -, -, rfl⟩ | ⟨-, cw, i, -, -, he⟩
      · simp [hrst] at hr
      · exact hs
      rcases exec_cases he with he | ⟨a, b, r, -, -, -, rfl⟩
      · exact he.drv_eq.trans hs
      · exact completed_drv_initialized.2 (.inl hs)
    · obtain ⟨b, r, -, hx⟩ := step_answered (i := .init) (by simp [requestOf]) hp hrst ha
      obtain rfl : t = completed .init _ b r s.sample := by simpa using hst.symm.trans hx
      exact completed_drv_initialized.2 (.inr ⟨rfl, rfl⟩)

/-- Settles O35: the answer's completion leaves `RAW = {b0, b1}` in an idle block, and `GET AMBIENT` there answers its codec. -/
theorem fetchedValueIsWhatGetDecodes : Obligations.FetchedValueIsWhatGetDecodes := by
  intro s ch b0 b1 e hd hp ha
  have hfetch : ∃ t, exec (.fetch ch) s = .next t ∧ t.phase = .idle ∧ t.drv = .initialized ∧ t.raw = b0 ++ b1 :=
    ⟨_, busCommand_answered hp ha, rfl, hd, rfl⟩
  obtain ⟨t, ht, htp, htd, htr⟩ := hfetch
  have hget : exec (.get 0x01) t = .next (t.respondPublic (decodeRaw t.raw)) := by
    rw [execGet_idle htp, acceptGet, htd]
    rfl
  refine ⟨t, _, ht, hget, htr, rfl, ?_⟩
  rw [respondPublic_rsp, htr, fracMillionths_eq_tmod, decodeRaw_eq_toInt]
  rfl

end Sys2Proof.Machine
end

section
/-! PROOFS, the bus requests a command issues and the history they enter (O44, O45). -/
namespace Sys2Proof.Machine

/-- In a waiting block no command issues a request: it is held, or the answer of the one in flight is recorded (R15). -/
theorem exec_wait_requests {i : Instr} {s t : State} (hp : s.phase ≠ .idle) (h : exec i s = .next t) :
    t.breq = s.breq ∧ t.hist.map (·.request) = s.hist.map (·.request) := by
  rcases exec_cases h with he | ⟨a, b, r, -, -, -, rfl⟩
  · cases he with
    | held => exact ⟨rfl, rfl⟩
    | responds r hi => exact absurd hi hp
    | issues q hi => exact absurd hi hp
  · exact ⟨rfl, answerLast_requests b s.hist⟩

/-- In an idle block there is no bus answer to take: a command ends early. -/
theorem exec_idle_early {i : Instr} {s t : State} (hp : s.phase = .idle) (h : exec i s = .next t) : Early i s t := by
  rcases exec_cases h with he | ⟨a, b, r, hw, -⟩
  · exact he
  · cases hp.symm.trans hw

/-- An idle `INIT` on a bus that is not ready issues nothing (R120). -/
theorem Early.requests_of_init_not_ready {s t : State} (h : Early .init s t) (hp : s.phase = .idle)
    (hb : s.pin.busReady = false) : t.breq = s.breq ∧ t.hist = s.hist := by
  cases h with
  | held hw => cases hp.symm.trans hw
  | responds => exact ⟨rfl, rfl⟩
  | issues q _ _ hready => cases hb.symm.trans (hready rfl)

/-- Any other command accepted by an idle block issues what the table of R72 names for it, and nothing where it names none. -/
theorem Early.requests_of_table {i : Instr} {s t : State} (h : Early i s t) (hp : s.phase = .idle) (hport : s.breq = none)
    (hready : i = .init → s.pin.busReady = true) :
    t.breq = requestOf i ∧ t.hist = s.hist ++ ((requestOf i).map (fun q => ⟨q, none⟩)).toList := by
  cases h with
  | held hw => cases hp.symm.trans hw
  | responds r _ _ _ hq =>
    rcases hq with hnone | ⟨hi, hb⟩
    · simp [hnone, hport]
    · cases hb.symm.trans (hready hi)
  | issues q _ _ _ hq => simp [hq]

/-- Settles O44: a waiting block issues nothing, and an idle one what acceptance issues. -/
theorem eachCommandIssuesItsOneRequest : Obligations.EachCommandIssuesItsOneRequest := by
  intro i s t hport h
  refine ⟨fun hp => ?_, fun hp hi hb => ?_, fun hp hready => ?_⟩
  · obtain ⟨hbreq, hreqs⟩ := exec_wait_requests hp h
    exact ⟨hbreq.trans hport, by simpa using congrArg List.length hreqs⟩
  · subst hi
    obtain ⟨hbreq, hhist⟩ := (exec_idle_early hp h).requests_of_init_not_ready hp hb
    exact ⟨hbreq.trans hport, hhist⟩
  · exact (exec_idle_early hp h).requests_of_table hp hport hready

/-- In an idle block that meets the invariant every request of the history is answered (R50). -/
theorem Inv.answered_of_idle {s : State} (h : Inv s) (hp : s.phase = .idle) : ∀ e ∈ s.hist, e.answer.isSome = true := by
  intro e he
  have hidle : PhaseAgrees .idle s.drv s.hist := hp ▸ h.agrees
  obtain ⟨r, hr, -⟩ := hidle e he
  simp [hr]

/-- Settles O45: only an idle block issues a request, and there the invariant has every earlier one answered. -/
theorem historyGrowsInCommandOrder : Obligations.HistoryGrowsInCommandOrder := by
  intro s t hinv hst hrst
  rcases step_cases hst with ⟨hr, -⟩ | ⟨-, -, -, rfl⟩ | ⟨-, cw, i, -, -, he⟩
  · cases hrst.symm.trans hr
  · exact .inl rfl
  by_cases hp : s.phase = .idle
  · cases exec_idle_early (s := s.sample) hp he with
    | held => exact .inl rfl
    | responds => exact .inl rfl
    | issues q => exact .inr ⟨hinv.answered_of_idle hp, q, rfl, rfl⟩
  · exact .inl (exec_wait_requests (s := s.sample) hp he).2

end Sys2Proof.Machine
end

section
/-! PROOFS, the words of the commands (O1 to O7). -/
namespace Sys2Proof.Machine

/-! ### The round trips -/

/-- A 16-bit value with a zero high byte is its low byte, extended. -/
theorem zero_append_lowByte {d : Half} (h : highByte d = 0) : 0#8 ++ lowByte d = d := by
  conv_rhs => rw [← bytes_append d, h]
  rfl

/-- A word that decodes to a command is that command's word: its fields are those `encode` fills (R63, R64). -/
theorem encode_of_decode {cw : Word} {i : Instr} (h : decode cw = .command i) : encode i = cw := by
  rcases (decode_eq_command_iff cw i).1 h with
    ⟨hop, hz, ha, hd, rfl⟩ | ⟨hop, hz, hd, rfl⟩ | ⟨hop, hz, hd, rfl⟩ | ⟨hop, hz, hd, rfl⟩ | ⟨hop, hz, hhigh, rfl⟩ |
    ⟨hop, hz, rfl⟩ | ⟨hop, hz, ha, rfl⟩ | ⟨hop, hz, ha, rfl⟩ | ⟨hop, hz, ha, rfl⟩ <;>
    simpa [encode, zero_append_lowByte, *] using packWord_fields hz

/-- Settles O1, by the fields of a packed word. -/
theorem decodeOfEncodeIsTheCommand : Obligations.DecodeOfEncodeIsTheCommand := decode_encode

/-- Settles O2: the decoder leaves no bit of an accepted word unread. -/
theorem encodeOfDecodeIsTheWord : Obligations.EncodeOfDecodeIsTheWord := fun _ _ => encode_of_decode

/-! ### A word under a mask -/

/-- The low byte of `D` is the low byte of the word. -/
theorem lowByte_dField (cw : Word) : lowByte (dField cw) = cw.extractLsb' 0 8 := by
  simp [lowByte, dField]

/-- The mask `0xFF00` is the high byte. -/
theorem and_highByte_eq_zero_iff (d : Half) : d &&& 0xFF00 = 0 ↔ highByte d = 0 := by
  have hmask : d &&& (BitVec.allOnes 8 ++ 0#8) = highByte d ++ 0#8 := by
    conv_lhs => rw [← bytes_append d]
    exact BitVec.and_append.trans (by rw [BitVec.and_allOnes, BitVec.and_zero])
  have hzero : highByte d ++ 0#8 = 0#8 ++ 0#8 ↔ highByte d = 0 := append_eq_iff.trans (by simp)
  rw [← hzero, ← hmask]
  rfl

section Masks
variable (cw : Word) (op : BitVec 4)

/-- Every row's mask takes all of `OP` and `Z`, and of `A` and `D` the must-be-zero bits `ma` and `md` (R62, R63). -/
theorem and_rowMask_iff (ma : Byte) (md : Half) :
    cw &&& (BitVec.allOnes 4 ++ BitVec.allOnes 4 ++ ma ++ md) = packWord op 0 0 ↔
      opField cw = op ∧ zField cw = 0 ∧ aField cw &&& ma = 0 ∧ dField cw &&& md = 0 :=
  (word_and_eq_iff cw _ _ op 0 ma 0 md 0).trans (by simp only [BitVec.and_allOnes])

/-- The row of `INIT`: all four fields are compared. -/
theorem and_initMask_iff : cw &&& 0xFFFFFFFF = packWord op 0 0 ↔
    opField cw = op ∧ zField cw = 0 ∧ aField cw = 0 ∧ dField cw = 0 :=
  (and_rowMask_iff cw op (BitVec.allOnes 8) (BitVec.allOnes 16)).trans (by simp [-BitVec.reduceAllOnes])

/-- The rows of `FETCH`, `GET` and `RD16`: `A` is the operand, `D` must be zero. -/
theorem and_readMask_iff : cw &&& 0xFF00FFFF = packWord op 0 0 ↔ opField cw = op ∧ zField cw = 0 ∧ dField cw = 0 :=
  (and_rowMask_iff cw op 0 (BitVec.allOnes 16)).trans (by simp [-BitVec.reduceAllOnes])

/-- The row of `WR8`: `D[15:8]` must be zero. -/
theorem and_wr8Mask_iff : cw &&& 0xFF00FF00 = packWord op 0 0 ↔
    opField cw = op ∧ zField cw = 0 ∧ highByte (dField cw) = 0 :=
  (and_rowMask_iff cw op 0 0xFF00).trans (by rw [and_highByte_eq_zero_iff]; simp)

/-- The row of `WR16`: `A` and `D` are operands. -/
theorem and_wr16Mask_iff : cw &&& 0xFF000000 = packWord op 0 0 ↔ opField cw = op ∧ zField cw = 0 :=
  (and_rowMask_iff cw op 0 0).trans (by simp)

/-- The rows of `DEC`, `ENC` and `TOPUB`: `A` must be zero, `D` is the operand. -/
theorem and_codecMask_iff : cw &&& 0xFFFF0000 = packWord op 0 0 ↔ opField cw = op ∧ zField cw = 0 ∧ aField cw = 0 :=
  (and_rowMask_iff cw op (BitVec.allOnes 8) 0).trans (by simp [-BitVec.reduceAllOnes])

end Masks

/-- Settles O3: the row of a command and the fields of its word say the same. -/
theorem decodeByMatchAndMask : Obligations.DecodeByMatchAndMask := by
  intro cw
  refine ⟨?_, fun ch => ?_, fun ch => ?_, fun reg => ?_, fun reg val => ?_, fun reg val => ?_, fun raw => ?_,
    fun temp => ?_, fun temp => ?_⟩ <;> rw [decode_eq_command_iff]
  · exact .trans (by simp) (and_initMask_iff cw 0).symm
  · exact .trans (by simp [aField, and_assoc, eq_comm]) (and_congr_left' (and_readMask_iff cw 1)).symm
  · exact .trans (by simp [aField, and_assoc, eq_comm]) (and_congr_left' (and_readMask_iff cw 2)).symm
  · exact .trans (by simp [aField, and_assoc, eq_comm]) (and_congr_left' (and_readMask_iff cw 3)).symm
  · exact .trans (by simp [aField, lowByte_dField, and_assoc, eq_comm]) (and_congr_left' (and_wr8Mask_iff cw 4)).symm
  · exact .trans (by simp [aField, dField, and_assoc, eq_comm]) (and_congr_left' (and_wr16Mask_iff cw 5)).symm
  · exact .trans (by simp [dField, and_assoc, eq_comm]) (and_congr_left' (and_codecMask_iff cw 6)).symm
  · exact .trans (by simp [dField, and_assoc, eq_comm]) (and_congr_left' (and_codecMask_iff cw 7)).symm
  · exact .trans (by simp [dField, and_assoc, eq_comm]) (and_congr_left' (and_codecMask_iff cw 8)).symm

/-! ### The rows of the opcode map -/

/-- No two rows bear the same mnemonic. -/
theorem opcodeRows_mnemonic_injective :
    ∀ r ∈ opcodeRows, ∀ r' ∈ opcodeRows, r.mnemonic = r'.mnemonic → r = r' := by
  decide

/-- A command's word is selected by the row of its mnemonic. -/
theorem encodedRow : ∀ i : Instr, Laws.EncodedRow.Statement i
  | .init => Laws.EncodedRow.init
  | .fetch ch => Laws.EncodedRow.fetch ch
  | .get ch => Laws.EncodedRow.get ch
  | .rd16 reg => Laws.EncodedRow.rd16 reg
  | .wr8 reg val => Laws.EncodedRow.wr8 reg val
  | .wr16 reg val => Laws.EncodedRow.wr16 reg val
  | .dec raw => Laws.EncodedRow.dec raw
  | .enc temp => Laws.EncodedRow.enc temp
  | .topub temp => Laws.EncodedRow.topub temp

/-- A word that a row selects decodes to a command of that row's mnemonic (R62). -/
theorem decode_of_selects {cw : Word} {r : OpcodeRow} (hr : r ∈ opcodeRows) (hs : r.selects cw = true) :
    ∃ i, decode cw = .command i ∧ i.mnemonic = r.mnemonic := by
  obtain ⟨hinit, hfetch, hget, hrd16, hwr8, hwr16, hdec, henc, htopub⟩ := decodeByMatchAndMask cw
  have hm : cw &&& r.mask = r.pattern := beq_iff_eq.1 hs
  simp only [opcodeRows, List.mem_cons, List.not_mem_nil, or_false] at hr
  rcases hr with rfl | rfl | rfl | rfl | rfl | rfl | rfl | rfl | rfl
  · exact ⟨_, hinit.2 hm, rfl⟩
  · exact ⟨_, (hfetch _).2 ⟨hm, rfl⟩, rfl⟩
  · exact ⟨_, (hget _).2 ⟨hm, rfl⟩, rfl⟩
  · exact ⟨_, (hrd16 _).2 ⟨hm, rfl⟩, rfl⟩
  · exact ⟨_, (hwr8 _ _).2 ⟨hm, rfl, rfl⟩, rfl⟩
  · exact ⟨_, (hwr16 _ _).2 ⟨hm, rfl, rfl⟩, rfl⟩
  · exact ⟨_, (hdec _).2 ⟨hm, rfl⟩, rfl⟩
  · exact ⟨_, (henc _).2 ⟨hm, rfl⟩, rfl⟩
  · exact ⟨_, (htopub _).2 ⟨hm, rfl⟩, rfl⟩

/-- Settles O4: the row of the mnemonic selects the word, and any row that does has that mnemonic, since `decode` gives one
answer. -/
theorem rowsPartitionTheCommandWords : Obligations.RowsPartitionTheCommandWords := by
  refine fun cw => ⟨fun i hd r hr => ⟨fun hs => ?_, fun hm => ?_⟩, fun why hd r hr => ?_⟩
  · obtain ⟨j, hj, hjr⟩ := decode_of_selects hr hs
    obtain rfl : i = j := Decoded.command.inj (hd.symm.trans hj)
    exact hjr.symm
  · obtain ⟨r', hr', hm', hs⟩ := encodedRow i
    rw [encode_of_decode hd] at hs
    exact opcodeRows_mnemonic_injective r hr r' hr' (hm.trans hm'.symm) ▸ hs
  · rw [Bool.eq_false_iff]
    intro hs
    obtain ⟨j, hj, -⟩ := decode_of_selects hr hs
    cases hd.symm.trans hj

/-! ### Reserved words -/

/-- A must-be-zero field of the word's opcode is not zero (R63). -/
def ZeroFieldSet (op z : BitVec 4) (a : Byte) (d : Half) : Prop :=
  z ≠ 0 ∨ (op = 0 ∧ (a ≠ 0 ∨ d ≠ 0)) ∨ ((op = 1 ∨ op = 2 ∨ op = 3) ∧ d ≠ 0) ∨ (op = 4 ∧ highByte d ≠ 0) ∨
    ((op = 6 ∨ op = 7 ∨ op = 8) ∧ a ≠ 0)

/-- What the decoder reserves: the opcodes from 9 on, and a set must-be-zero field (R66). -/
theorem decode_eq_reserved_iff (cw : Word) : (∃ why, decode cw = .reserved why) ↔
    9 ≤ (opField cw).toNat ∨ ZeroFieldSet (opField cw) (zField cw) (aField cw) (dField cw) := by
  unfold decode ZeroFieldSet
  generalize opField cw = op, zField cw = z, aField cw = a, dField cw = d
  simp only []
  split_ifs with h0 h1 h2 h3 h4 h5 h6 h7 h8
  case neg =>
    have hop : 9 ≤ op.toNat := by bv_omega
    simp [hop]
  all_goals subst_vars; simp [needZero_eq_reserved]

/-- The masks of R63 read the must-be-zero fields. -/
theorem mustBeZeroBitSet_iff (cw : Word) :
    MustBeZeroBitSet cw ↔ ZeroFieldSet (opField cw) (zField cw) (aField cw) (dField cw) := by
  have hop (op : BitVec 4) : cw &&& 0xF0000000 = packWord op 0 0 ↔ opField cw = op :=
    (word_and_eq_iff cw (BitVec.allOnes 4) 0 op 0 0 0 0 0).trans (by simp [-BitVec.reduceAllOnes])
  have hz : cw &&& 0x0F000000 = 0 ↔ zField cw = 0 :=
    (word_and_eq_iff cw 0 (BitVec.allOnes 4) 0 0 0 0 0 0).trans (by simp [-BitVec.reduceAllOnes])
  have had : cw &&& 0x00FFFFFF = 0 ↔ aField cw = 0 ∧ dField cw = 0 :=
    (word_and_eq_iff cw 0 0 0 0 (BitVec.allOnes 8) 0 (BitVec.allOnes 16) 0).trans (by simp [-BitVec.reduceAllOnes])
  have ha : cw &&& 0x00FF0000 = 0 ↔ aField cw = 0 :=
    (word_and_eq_iff cw 0 0 0 0 (BitVec.allOnes 8) 0 0 0).trans (by simp [-BitVec.reduceAllOnes])
  have hd : cw &&& 0x0000FFFF = 0 ↔ dField cw = 0 :=
    (word_and_eq_iff cw 0 0 0 0 0 0 (BitVec.allOnes 16) 0).trans (by simp [-BitVec.reduceAllOnes])
  have hhigh : cw &&& 0x0000FF00 = 0 ↔ highByte (dField cw) = 0 :=
    (word_and_eq_iff cw 0 0 0 0 0 0 0xFF00 0).trans (by rw [and_highByte_eq_zero_iff]; simp)
  rw [MustBeZeroBitSet, ZeroFieldSet]
  exact or_congr hz.not (or_congr (and_congr (hop 0) (had.not.trans not_and_or)) (or_congr
    (and_congr (or_congr (hop 1) (or_congr (hop 2) (hop 3))) hd.not) (or_congr (and_congr (hop 4) hhigh.not)
      (and_congr (or_congr (hop 6) (or_congr (hop 7) (hop 8))) ha.not))))

/-- Settles O5: the decoder's own reserved words are those of R66, and an idle block refuses what its decoder reserves. -/
theorem reservedWordsAreRefused : Obligations.ReservedWordsAreRefused := by
  have hreserved (cw : Word) :
      (∃ why, decode cw = .reserved why) ↔ 9 ≤ (cw.extractLsb' 28 4).toNat ∨ MustBeZeroBitSet cw := by
    rw [decode_eq_reserved_iff, mustBeZeroBitSet_iff]
    rfl
  refine ⟨hreserved, fun s cw hp hr hc hw => ?_⟩
  obtain ⟨why, hd⟩ := (hreserved cw).2 hw
  exact ⟨why, by rw [step_idle hp hr, hc, runWord_reserved hd]⟩

/-! ### Worked words -/

/-- Settles O6: the layout is how `encode` is written, and the examples are its values. -/
theorem encodeFillsTheFields : Obligations.EncodeFillsTheFields := by
  refine ⟨rfl, fun _ => rfl, fun _ => rfl, fun _ => rfl, fun _ _ => rfl, fun _ _ => rfl, fun _ => rfl, fun _ => rfl,
    fun _ => rfl, ?_⟩
  decide

/-- Settles O7, by running the decoder on the fourteen words. -/
theorem workedWordsDecode : Obligations.WorkedWordsDecode := by
  unfold Obligations.WorkedWordsDecode
  decide

end Sys2Proof.Machine
end

section
/-! PROOFS, how a run answers and where it stops (O42, O43, O48, O49). -/
namespace Sys2Proof.Machine

/-! ### Responses -/

/-- The response of a completion has the fields its status allows (R69). -/
theorem Completion.fields {i : Instr} {a : BusAnswer} {b : BusResult} {r : Response} (h : Completion i a b r) :
    responseFields i r.status = some (r.r0.isSome, r.r1.isSome) := by
  cases h with
  | read _ _ _ _ hf => exact hf
  | written _ _ _ _ hf => exact hf
  | failed _ _ _ hf => exact hf

/-- Settles O42, by the ways a command ends: it answers at once, or at its completion. -/
theorem responseFieldsByCommandAndStatus : Obligations.ResponseFieldsByCommandAndStatus := by
  intro i s t r hs he hr
  rcases exec_cases he with he | ⟨a, b, r', -, -, hc, rfl⟩
  · cases he with
    | held => cases hs.symm.trans hr
    | responds r' _ _ hf => exact Option.some.inj hr ▸ hf
    | issues => cases hs.symm.trans hr
  · exact Option.some.inj hr ▸ hc.fields

/-- A command run where no response stands leaves one exactly when it leaves the block idle (R15, R68). -/
theorem exec_rspValid_iff {i : Instr} {s t : State} (hs : s.rsp = none) (h : exec i s = .next t) :
    t.rspValid = true ↔ t.phase = .idle := by
  rcases exec_cases h with he | ⟨a, b, r, -, -, -, rfl⟩
  · cases he with
    | held hp => simp [State.rspValid, hs, hp]
    | responds r hp => simp [State.rspValid, hp]
    | issues => simp [State.rspValid, hs]
  · simp [State.rspValid, completed]

/-- Settles O43: an empty idle slot gives no response; any other slot runs a command, in flight or presented. -/
theorem oneResponsePerCompletion : Obligations.OneResponsePerCompletion := by
  intro s t _ hst hrst
  rcases step_cases hst with ⟨hr, -⟩ | ⟨-, hp, hc, rfl⟩ | ⟨-, cw, i, hw, -, he⟩
  · cases hrst.symm.trans hr
  · simp [State.rspValid, hp, hc]
  · have hcommand : s.phase ≠ .idle ∨ (nextSlot s.inputs).cmd.isSome = true := by
      by_cases hp : s.phase = .idle
      · have hcmd : (nextSlot s.inputs).cmd = some cw := (currentWord_idle (s := s.sample) hp).symm.trans hw
        exact .inr (by simp [hcmd])
      · exact .inl hp
    rw [exec_rspValid_iff (sample_rsp s) he, and_iff_left hcommand]

/-! ### Refusals -/

/-- An idle block goes on with every command that is admitted (R128). -/
theorem exec_admitted_next {i : Instr} {s : State} (hp : s.phase = .idle) (ha : admitted i s.drv = true) :
    ∃ t, exec i s = .next t := by
  cases i with
  | init =>
    rw [execInit_idle hp, acceptInit]
    cases hd : s.drv with
    | initialized => simp [hd, admitted] at ha
    | uninit => dsimp only; split_ifs <;> exact ⟨_, rfl⟩
  | fetch ch =>
    rw [execFetch_idle hp, acceptFetch]
    cases hd : s.drv with
    | uninit => simp [hd, admitted] at ha
    | initialized => dsimp only; split_ifs <;> exact ⟨_, rfl⟩
  | get ch =>
    rw [execGet_idle hp, acceptGet]
    cases hd : s.drv with
    | uninit => simp [hd, admitted] at ha
    | initialized => dsimp only; split_ifs <;> exact ⟨_, rfl⟩
  | rd16 reg => exact ⟨_, execRd16_idle hp reg⟩
  | wr8 reg val => exact ⟨_, execWr8_idle hp reg val⟩
  | wr16 reg val => exact ⟨_, execWr16_idle hp reg val⟩
  | dec raw => exact ⟨_, execDec_idle hp raw⟩
  | enc temp => exact ⟨_, execEnc_idle hp temp⟩
  | topub temp => exact ⟨_, execTopub_idle hp temp⟩

/-- An idle block refuses by name the three commands that are not admitted (R128). -/
theorem exec_not_admitted {i : Instr} {s : State} (hp : s.phase = .idle) (ha : admitted i s.drv = false) :
    (i = .init ∧ s.drv = .initialized ∧ exec i s = .refused .initWhenInitialized) ∨
    (∃ ch, i = .fetch ch ∧ s.drv = .uninit ∧ exec i s = .refused .fetchWhenUninit) ∨
    (∃ ch, i = .get ch ∧ s.drv = .uninit ∧ exec i s = .refused .getWhenUninit) := by
  cases i with
  | init =>
    cases hd : s.drv with
    | initialized => exact .inl ⟨rfl, rfl, by rw [execInit_idle hp, acceptInit, hd]⟩
    | uninit => simp [hd, admitted] at ha
  | fetch ch =>
    cases hd : s.drv with
    | uninit => exact .inr (.inl ⟨ch, rfl, rfl, by rw [execFetch_idle hp, acceptFetch, hd]⟩)
    | initialized => simp [hd, admitted] at ha
  | get ch =>
    cases hd : s.drv with
    | uninit => exact .inr (.inr ⟨ch, rfl, rfl, by rw [execGet_idle hp, acceptGet, hd]⟩)
    | initialized => simp [hd, admitted] at ha
  | rd16 | wr8 | wr16 | dec | enc | topub => cases ha

/-- A waiting block that meets the invariant never stops: its word in flight is a command (R15). -/
theorem Inv.step_wait_next {s : State} {c : Word} (h : Inv s) (hp : s.phase = .wait c)
    (hr : (nextSlot s.inputs).rst = false) : ∃ t, step s = .next t := by
  obtain ⟨i, -, -, hd, -⟩ := (hp ▸ h.agrees : PhaseAgrees (.wait c) s.drv s.hist)
  rw [step_wait hp hr, runWord_command hd]
  exact exec_wait_next (s := s.sample) hp

/-- Settles O48, by the slot: a reset, a command in flight, nothing presented, or a word presented, which is reserved, or an
admitted command, or not. -/
theorem runsStopOnlyAtReservedOrUnadmittedCommands : Obligations.RunsStopOnlyAtReservedOrUnadmittedCommands := by
  intro s hinv
  cases hr : (nextSlot s.inputs).rst with
  | true => exact .inl ⟨_, step_rst hr⟩
  | false =>
  cases hp : s.phase with
  | wait c => exact .inl (hinv.step_wait_next hp hr)
  | idle =>
  rw [step_idle hp hr]
  cases hc : (nextSlot s.inputs).cmd with
  | none => exact .inl ⟨_, runWord_none _⟩
  | some cw =>
  cases hd : decode cw with
  | reserved why => exact .inr ⟨rfl, rfl, cw, rfl, .inl ⟨why, hd, runWord_reserved hd⟩⟩
  | command i =>
  rw [runWord_command hd]
  cases ha : admitted i s.drv with
  | true => exact .inl (exec_admitted_next (s := s.sample) hp ha)
  | false =>
    refine .inr ⟨rfl, rfl, cw, rfl, .inr ?_⟩
    rcases exec_not_admitted (s := s.sample) hp ha with ⟨rfl, hdrv, he⟩ | ⟨ch, rfl, hdrv, he⟩ | ⟨ch, rfl, hdrv, he⟩
    · exact .inl ⟨hd, hdrv, he⟩
    · exact .inr (.inl ⟨ch, hd, hdrv, he⟩)
    · exact .inr (.inr ⟨ch, hd, hdrv, he⟩)

/-- Settles O49, by the table of `Status.code`. -/
theorem statusCodes : Obligations.StatusCodes := ⟨rfl, rfl, rfl, rfl, rfl, rfl⟩

end Sys2Proof.Machine
end

section
/-! PROOFS, a line of text and its commands (O50, O51). -/
namespace Sys2Proof.Machine

/-- A `temp` in its range is what its 16-bit operand reads signed (R64, R75). -/
theorem signedOperand_ofInt {temp : Int} (hlo : -32768 ≤ temp) (hhi : temp ≤ 32767) :
    signedOperand (BitVec.ofInt 16 temp) = temp := by
  rw [signedOperand, BitVec.toInt_ofInt, Int.bmod_eq_of_le] <;> omega

/-- `ENC temp` stands for its command exactly in the range of R75. -/
theorem expandAsm_enc (temp : Int) : expandAsm (.enc temp) =
    if -32768 ≤ temp ∧ temp ≤ 32767 then some [.enc (BitVec.ofInt 16 temp)] else none := by
  simp [expandAsm, Asm.wellFormed]

/-- `TOPUB temp` stands for its command exactly in the range of R75. -/
theorem expandAsm_topub (temp : Int) : expandAsm (.topub temp) =
    if -32768 ≤ temp ∧ temp ≤ 32767 then some [.topub (BitVec.ofInt 16 temp)] else none := by
  simp [expandAsm, Asm.wellFormed]

/-- Settles O50, by the ranges of `Asm.wellFormed`. -/
theorem operandRangesOfTheTextualSyntax : Obligations.OperandRangesOfTheTextualSyntax := by
  refine ⟨fun ch => ?_, fun ch => ?_, fun reg => ?_, fun reg val => ?_, fun reg val => ?_, fun raw => ?_,
    fun temp is h => ?_, fun temp is h => ?_, fun temp hlo hhi => ?_⟩
  case refine_7 =>
    obtain ⟨⟨hlo, hhi⟩, his⟩ := Option.ite_none_right_eq_some.1 (expandAsm_enc temp ▸ h)
    exact ⟨hlo, hhi, _, (Option.some.inj his).symm, signedOperand_ofInt hlo hhi⟩
  case refine_8 =>
    obtain ⟨⟨hlo, hhi⟩, his⟩ := Option.ite_none_right_eq_some.1 (expandAsm_topub temp ▸ h)
    exact ⟨hlo, hhi, _, (Option.some.inj his).symm, signedOperand_ofInt hlo hhi⟩
  case refine_9 => simp [expandAsm_enc, expandAsm_topub, hlo, hhi]
  all_goals simp [expandAsm, Asm.wellFormed, Nat.lt_succ_iff]

/-- Settles O51: the assembler is run on the line, and `sampleNext` asks for `OK` only. -/
theorem sampleIsFetchThenGet : Obligations.SampleIsFetchThenGet :=
  ⟨by decide, fun r => by simp [sampleNext]⟩

end Sys2Proof.Machine
end

section
/-! PROOFS, the Register Transport (O17 to O20) and the requests the sensor commands share with it (O36). -/
namespace Sys2Proof.Machine

/-! ### The answer to the outstanding request -/

section Outstanding
variable {s : State} {past : List HistEntry} {q : BusRequest} (hh : s.hist = past ++ [⟨q, none⟩])
include hh

/-- The answer goes to the outstanding request and to no other (R18). -/
theorem recordAnswer_outstanding (r : BusResult) :
    s.recordAnswer r = { s with hist := past ++ [⟨q, some r⟩] } := by
  rw [State.recordAnswer, hh, answerLast_append]

/-! The four ways an outstanding request ends (R40, R42). -/

theorem onReadAnswer_ok (onOk : Half → State → State) (onFail : Byte → State → State) (b0 b1 e : Byte) :
    onReadAnswer onOk onFail ⟨true, b0, b1, e⟩ s =
      onOk (b0 ++ b1) { s with hist := past ++ [⟨q, some (.okRead b0 b1)⟩] } :=
  congrArg (onOk (b0 ++ b1)) (recordAnswer_outstanding hh _)

theorem onReadAnswer_fail (onOk : Half → State → State) (onFail : Byte → State → State) (b0 b1 e : Byte) :
    onReadAnswer onOk onFail ⟨false, b0, b1, e⟩ s = onFail e { s with hist := past ++ [⟨q, some (.fail e)⟩] } :=
  congrArg (onFail e) (recordAnswer_outstanding hh _)

theorem onWriteAnswer_ok (onOk : State → State) (onFail : Byte → State → State) (b0 b1 e : Byte) :
    onWriteAnswer onOk onFail ⟨true, b0, b1, e⟩ s = onOk { s with hist := past ++ [⟨q, some .ok⟩] } :=
  congrArg onOk (recordAnswer_outstanding hh _)

theorem onWriteAnswer_fail (onOk : State → State) (onFail : Byte → State → State) (b0 b1 e : Byte) :
    onWriteAnswer onOk onFail ⟨false, b0, b1, e⟩ s = onFail e { s with hist := past ++ [⟨q, some (.fail e)⟩] } :=
  congrArg (onFail e) (recordAnswer_outstanding hh _)

end Outstanding

/-! ### The three transport commands -/

/-- Settles O17: acceptance issues the read, and the answer completes it. -/
theorem rd16ReadsTheRegister : Obligations.Rd16ReadsTheRegister := by
  refine fun reg s => ⟨fun hp => execRd16_idle hp reg, fun q past b0 b1 e hp hh ha => ?_,
    fun q past b0 b1 e hp hh ha => ?_⟩ <;>
    rw [exec, execRd16, busCommand_answered (i := .rd16 reg) hp ha]
  · exact congrArg Host.Outcome.next (onReadAnswer_ok hh _ _ b0 b1 e)
  · exact congrArg Host.Outcome.next (onReadAnswer_fail hh _ _ b0 b1 e)

/-- Settles O18: acceptance issues the write, and the answer completes it. -/
theorem wr8WritesOneByte : Obligations.Wr8WritesOneByte := by
  refine fun reg val s => ⟨fun hp => execWr8_idle hp reg val, fun q past b0 b1 e hp hh ha => ?_,
    fun q past b0 b1 e hp hh ha => ?_⟩ <;>
    rw [exec, execWr8, busCommand_answered (i := .wr8 reg val) hp ha]
  · exact congrArg Host.Outcome.next (onWriteAnswer_ok hh _ _ b0 b1 e)
  · exact congrArg Host.Outcome.next (onWriteAnswer_fail hh _ _ b0 b1 e)

/-- The bytes of `{vh, vl}` go out high byte first (R43). -/
theorem toBigEndian_append (vh vl : Byte) : toBigEndian (vh ++ vl) = [vh, vl] := by
  rw [toBigEndian, highByte_append, lowByte_append]

/-- Settles O19: acceptance issues the write of the value's two bytes, and the answer completes it. -/
theorem wr16WritesTwoBytesBigEndian : Obligations.Wr16WritesTwoBytesBigEndian := by
  refine fun reg vh vl s => ⟨fun hp => ?_, fun q past b0 b1 e hp hh ha => ?_, fun q past b0 b1 e hp hh ha => ?_⟩
  · rw [execWr16_idle hp, write16Request, toBigEndian_append]
    rfl
  all_goals rw [exec, execWr16, busCommand_answered (i := .wr16 reg (vh ++ vl)) hp ha]
  · exact congrArg Host.Outcome.next (onWriteAnswer_ok hh _ _ b0 b1 e)
  · exact congrArg Host.Outcome.next (onWriteAnswer_fail hh _ _ b0 b1 e)

/-! ### What the transport never reads -/

/-- The state with any other `DRV`, `RAW` and `bus_ready`. -/
def withUnread (d : Drv) (r : Half) (b : Bool) (t : State) : State :=
  { t with drv := d, raw := r, pin := { t.pin with busReady := b } }

/-- A command that is always accepted with one request, and whose completion does not read `DRV`, `RAW` and `bus_ready`,
gives the same whatever these are. -/
theorem busCommand_withUnread {d : Drv} {r : Half} {b : Bool} {i : Instr} {c : Word} {q : BusRequest}
    {k : BusAnswer → State → State} (hk : ∀ a s, k a (withUnread d r b s) = withUnread d r b (k a s)) (s : State) :
    busCommand i (fun s => .next (s.issue c q)) k (withUnread d r b s) =
      mapNext (withUnread d r b) (busCommand i (fun s => .next (s.issue c q)) k s) := by
  have hphase : (withUnread d r b s).phase = s.phase := rfl
  have hanswer : (withUnread d r b s).pin.answer = s.pin.answer := rfl
  unfold busCommand
  rw [hphase, hanswer]
  cases s.phase with
  | idle => rfl
  | wait w =>
    dsimp only
    split_ifs
    · cases s.pin.answer with
      | none => rfl
      | some a => exact congrArg Host.Outcome.next (hk a s)
    · rfl

/-- The completion of `RD16` does not read them. -/
theorem onReadAnswer_withUnread {d : Drv} {r : Half} {b : Bool} (a : BusAnswer) (s : State) (f : Half → Option Word) :
    onReadAnswer (fun v s => s.respondOk (f v) none) raiseTransportError a (withUnread d r b s) =
      withUnread d r b (onReadAnswer (fun v s => s.respondOk (f v) none) raiseTransportError a s) := by
  unfold onReadAnswer
  split <;> rfl

/-- The completion of `WR8` and `WR16` does not read them. -/
theorem onWriteAnswer_withUnread {d : Drv} {r : Half} {b : Bool} (a : BusAnswer) (s : State) :
    onWriteAnswer (fun s => s.respondOk none none) raiseTransportError a (withUnread d r b s) =
      withUnread d r b (onWriteAnswer (fun s => s.respondOk none none) raiseTransportError a s) := by
  unfold onWriteAnswer
  split <;> rfl

/-- An admitted command answers a next state in either phase: accepted in `IDLE`, held or completed in `WAIT` (R15, R128). -/
theorem exec_next_of_admitted {i : Instr} {s : State} (h : admitted i s.drv = true) : ∃ t, exec i s = .next t := by
  cases hp : s.phase with
  | idle => exact exec_admitted_next hp h
  | wait c => exact exec_wait_next hp

/-- Settles O20: acceptance and completion do not read the three fields; and so they keep `DRV` and `RAW`, as putting the
present values in their place shows. -/
theorem transportIsStateBlind : Obligations.TransportIsStateBlind := by
  intro i s d r b hi
  have hblind (d : Drv) (r : Half) (b : Bool) :
      exec i (withUnread d r b s) = mapNext (withUnread d r b) (exec i s) := by
    rcases hi with ⟨reg, rfl⟩ | ⟨reg, val, rfl⟩ | ⟨reg, val, rfl⟩
    · exact busCommand_withUnread (fun a s => onReadAnswer_withUnread a s _) s
    · exact busCommand_withUnread onWriteAnswer_withUnread s
    · exact busCommand_withUnread onWriteAnswer_withUnread s
  have hadm : admitted i s.drv = true := by
    rcases hi with ⟨reg, rfl⟩ | ⟨reg, val, rfl⟩ | ⟨reg, val, rfl⟩ <;> rfl
  obtain ⟨t, ht⟩ := exec_next_of_admitted hadm
  have hkeep : t = withUnread s.drv s.raw s.pin.busReady t := by
    have h : exec i s = mapNext (withUnread s.drv s.raw s.pin.busReady) (exec i s) := hblind ..
    rw [ht] at h
    exact Host.Outcome.next.inj h
  exact ⟨hblind d r b, t, ht, (congrArg State.drv hkeep :), (congrArg State.raw hkeep :)⟩

/-! ### The sensor commands on the transport -/

/-- Where `INIT` is admitted and the bus is ready, acceptance issues its write (R120). -/
theorem acceptInit_ready {s : State} (hd : s.drv = .uninit) (hb : s.pin.busReady = true) :
    acceptInit s = .next (s.issue (encode .init) (write8Request Config.resolutionRegister resolutionByte)) := by
  simp [acceptInit, hd, hb]

/-- Where `FETCH` is admitted with a supported channel, acceptance issues its read (R123). -/
theorem acceptFetch_supported {s : State} {ch : Byte} (hd : s.drv = .initialized)
    (hc : ch = Config.chAll ∨ ch = Config.chAmbient) :
    acceptFetch ch s = .next (s.issue (encode (.fetch ch)) (readRequest Config.ambientTempRegister)) := by
  simp [acceptFetch, fetchSupports, hd, hc]

/-- Settles O36: acceptance of the sensor command issues the request of `WR8` or `RD16` on the register it names. -/
theorem sensorCommandsIssueTransportRequests : Obligations.SensorCommandsIssueTransportRequests := by
  refine fun s hp => ⟨fun hd hb => ?_, fun ch hd hc => ?_⟩
  · exact ⟨_, _, (execInit_idle hp).trans (acceptInit_ready hd hb),
      execWr8_idle hp Config.resolutionRegister resolutionByte, by simp, by simp⟩
  · exact ⟨_, _, (execFetch_idle hp ch).trans (acceptFetch_supported hd hc),
      execRd16_idle hp Config.ambientTempRegister, by simp, by simp⟩

end Sys2Proof.Machine
end

section
/-! PROOFS, the Temperature Codec (O21 to O30). -/
namespace Sys2Proof.Machine

/-! ### `decode` and `encode` as numbers -/

/-- The low 13 bits as a number (R101). -/
theorem low13_toNat (r : Half) : (r &&& 0x1FFF).toNat = r.toNat % 8192 := by
  rw [BitVec.toNat_and, show (0x1FFF : Half).toNat = 2 ^ 13 - 1 from rfl, Nat.and_two_pow_sub_one_eq_mod]

/-- `decode` as arithmetic on the raw number: 13 bits, two's complement (R113). -/
theorem decodeRaw_eq_ite (r : Half) :
    decodeRaw r = if r.toNat % 8192 < 4096 then ((r.toNat % 8192 : Nat) : Int) else (r.toNat % 8192 : Nat) - 8192 := by
  have hn : (r.extractLsb' 0 13).toNat = r.toNat % 8192 := by simp
  rw [decodeRaw_eq_toInt, BitVec.toInt_eq_toNat_cond, hn]
  split_ifs <;> omega

/-- `decode` answers in -4096..4095 (R100). -/
theorem decodeRaw_range (r : Half) : -4096 ≤ decodeRaw r ∧ decodeRaw r ≤ 4095 := by
  rw [decodeRaw_eq_ite]
  split_ifs <;> omega

/-- The number `encode` builds: the magnitude field, and 4096 for the sign bit (R103). -/
theorem encodeTemp_toNat (t : Int) : ((encodeTemp t).toNat : Int) = (if t < 0 then 4096 else 0) + t % 4096 := by
  have hm : (BitVec.ofNat 12 (t % 4096).toNat).toNat = (t % 4096).toNat := by
    rw [BitVec.toNat_ofNat]
    omega
  have hs : (0#3 ++ BitVec.ofBool (decide (t < 0))).toNat = if t < 0 then 1 else 0 := by
    split_ifs with h <;> simp [h]
  rw [encodeTemp, BitVec.toNat_append, hs, hm, ← Nat.shiftLeft_add_eq_or_of_lt (by omega), Nat.shiftLeft_eq]
  split_ifs <;> omega

/-- `decode` after `encode`: only the residue modulo 4096 and the sign class are left of `t` (R114). -/
theorem decodeRaw_encodeTemp (t : Int) : decodeRaw (encodeTemp t) = t % 4096 - if t < 0 then 4096 else 0 := by
  have h := encodeTemp_toNat t
  rw [decodeRaw_eq_ite]
  split_ifs at h ⊢ <;> omega

/-- Settles O21: each sign is a branch of the definition; the range and the mask come from the closed form. -/
theorem decodeBySignBit : Obligations.DecodeBySignBit := by
  refine fun raw => ⟨fun h => if_pos h, fun h => if_neg (Bool.eq_false_iff.1 h), (decodeRaw_range raw).1,
    (decodeRaw_range raw).2, decodeRaw_eq_of_mask_eq ?_⟩
  rw [BitVec.and_assoc, BitVec.and_self]

/-- Settles O22: the closed form R113. -/
theorem decodeClosedForm : Obligations.DecodeClosedForm := decodeRaw_eq_toInt

/-- Settles O23: the number of `encode`. -/
theorem encodeBySignAndMagnitude : Obligations.EncodeBySignAndMagnitude := encodeTemp_toNat

/-- Settles O24, both ways through the numbers of `decode` and `encode`. -/
theorem codecRoundTrips : Obligations.CodecRoundTrips := by
  constructor
  · intro r
    have he := encodeTemp_toNat (decodeRaw r)
    have hd := decodeRaw_eq_ite r
    apply BitVec.eq_of_toNat_eq
    rw [low13_toNat]
    split_ifs at he hd <;> omega
  · intro t hlo hhi
    rw [decodeRaw_encodeTemp]
    split_ifs <;> omega

/-- Settles O25: what `decode` reads of `encode t` is `t` only in the codec's range. -/
theorem encodeOutsideTheCodecRange : Obligations.EncodeOutsideTheCodecRange := by
  refine ⟨fun t => ?_, fun t u hsign hmod => ?_, by decide, by decide, by decide, by decide⟩
  · rw [decodeRaw_encodeTemp]
    split_ifs <;> omega
  · rw [encodeTemp, encodeTemp, hmod, decide_eq_decide.2 hsign]

/-! ### `to_public` -/

/-- The integer part and the remainder have the sign of the dividend or are zero, and the remainder is below the divisor
(R108, R111). -/
theorem intPart_remainder (t : Int) :
    (0 ≤ t → 0 ≤ intPart t ∧ 0 ≤ t - intPart t * 16 ∧ t - intPart t * 16 ≤ 15) ∧
    (t ≤ 0 → intPart t ≤ 0 ∧ -15 ≤ t - intPart t * 16 ∧ t - intPart t * 16 ≤ 0) := by
  obtain ⟨hpos, hneg⟩ := intPart_spec t
  constructor <;> intro h
  · have := hpos h
    omega
  · have := hneg h
    omega

/-- Settles O26 by the quotient, the remainder and the exact second division. -/
theorem toPublicIsExactAndSigned : Obligations.ToPublicIsExactAndSigned := by
  refine ⟨by decide, fun t => ?_⟩
  have hfrac := fracMillionths_eq t
  obtain ⟨hpos, hneg⟩ := intPart_remainder t
  refine ⟨rfl, rfl, ?_, hfrac, ?_, ?_, fun h => ?_, fun h => ?_⟩ <;> omega

/-- A dividend in `-16n..16n-1` has its integer part in `-n..n-1` (R110). -/
theorem intPart_range {t n : Int} (hlo : -(16 * n) ≤ t) (hhi : t < 16 * n) : -n ≤ intPart t ∧ intPart t < n := by
  obtain ⟨hpos, hneg⟩ := intPart_remainder t
  omega

/-- The fraction is below one degree (R109). -/
theorem fracMillionths_range (t : Int) : -937500 ≤ fracMillionths t ∧ fracMillionths t ≤ 937500 := by
  obtain ⟨hpos, hneg⟩ := intPart_remainder t
  have := fracMillionths_eq t
  omega

/-- `tc_32` loses nothing of an integer that 32 bits hold (R110, R112). -/
theorem tc32_toInt {z : Int} (hlo : -2147483648 ≤ z) (hhi : z < 2147483648) : (tc32 z).toInt = z :=
  BitVec.toInt_ofInt_eq_self (by decide) hlo hhi

/-- Settles O27: the ranges of R110, each inside 32 bits. -/
theorem codecResultsFit32Bits : Obligations.CodecResultsFit32Bits := by
  intro d
  have hlo : -(16 * 2048) ≤ signedOperand d := BitVec.le_toInt d
  have hhi : signedOperand d < 16 * 2048 := BitVec.toInt_lt
  have hint := intPart_range hlo hhi
  have hfrac := fracMillionths_range (signedOperand d)
  have hdec := decodeRaw_range d
  have hdint := intPart_range (t := decodeRaw d) (n := 256) (by omega) (by omega)
  refine ⟨by omega, by omega, hfrac.1, hfrac.2, tc32_toInt ?_ ?_, tc32_toInt ?_ ?_, tc32_toInt ?_ ?_, ?_, ?_⟩ <;> omega

/-! ### The three commands -/

/-- The sign bit of `encode` is the operand's (R104). -/
theorem sign_signedOperand (d : Half) : BitVec.ofBool (decide (signedOperand d < 0)) = d.extractLsb' 15 1 := by
  rw [signedOperand, ← BitVec.msb_eq_toInt]
  ext i hi
  simp [BitVec.msb_eq_getLsbD_last, Nat.lt_one_iff.1 hi]

/-- The magnitude of `encode` is the operand's low 12 bits (R104). -/
theorem magnitude_signedOperand (d : Half) : BitVec.ofNat 12 (signedOperand d % 4096).toNat = d.extractLsb' 0 12 := by
  apply BitVec.eq_of_toNat_eq
  rw [BitVec.toNat_ofNat, BitVec.extractLsb'_toNat, signedOperand, BitVec.toInt_eq_toNat_cond]
  split_ifs <;> omega

/-- Settles O29: `encode` field by field, zero-extended. -/
theorem encAnswersTheEncodedValue : Obligations.EncAnswersTheEncodedValue := by
  intro d s hp
  have hr0 : zext32 (encodeTemp (signedOperand d)) = 0#19 ++ d.extractLsb' 15 1 ++ d.extractLsb' 0 12 := by
    rw [zext32, encodeTemp, sign_signedOperand, magnitude_signedOperand]
    apply BitVec.eq_of_toNat_eq
    rw [BitVec.toNat_setWidth_of_le (by decide)]
    simp only [BitVec.toNat_append, BitVec.toNat_zero]
  rw [execEnc_idle hp, State.respondOk, respond_idle hp, hr0]

/-- Settles O28 by the closed form of `decode`. -/
theorem decAnswersTheDecodedValue : Obligations.DecAnswersTheDecodedValue := by
  intro raw s hp
  rw [execDec_idle hp, State.respondOk, respond_idle hp, decodeRaw_eq_toInt, tc32]

/-- Settles O30: the pair is `to_public` of the signed operand. -/
theorem topubAnswersThePublicPair : Obligations.TopubAnswersThePublicPair := by
  intro d s hp
  rw [execTopub_idle hp, State.respondPublic, State.respondOk, respond_idle hp]
  rfl

end Sys2Proof.Machine
end

section
/-! PROOFS, the Sensor State commands (O31 to O34). -/
namespace Sys2Proof.Machine

/-! ### Acceptance in an idle block, by the value of `DRV` and the check each command makes first -/

section Acceptance
variable {s : State} {ch : Byte} (hp : s.phase = .idle)
include hp

/-- In `IDLE` an error changes nothing but the response (R146). -/
theorem raise_idle (e : Status) (info : Option Word) : s.raise e info = { s with rsp := some ⟨e, info, none⟩ } :=
  respond_idle hp _

/-- `INIT` is not admitted once initialized (R128). -/
theorem execInit_refused (hd : s.drv = .initialized) : exec .init s = .refused .initWhenInitialized := by
  rw [execInit_idle hp, acceptInit, hd]

/-- `FETCH` is not admitted before `INIT`, whatever its channel (R128). -/
theorem execFetch_refused (hd : s.drv = .uninit) : exec (.fetch ch) s = .refused .fetchWhenUninit := by
  rw [execFetch_idle hp, acceptFetch, hd]

/-- `GET` is not admitted before `INIT`, whatever its channel (R128). -/
theorem execGet_refused (hd : s.drv = .uninit) : exec (.get ch) s = .refused .getWhenUninit := by
  rw [execGet_idle hp, acceptGet, hd]

/-- The readiness check of `INIT` comes before its request (R121). -/
theorem execInit_notReady (hd : s.drv = .uninit) (hb : s.pin.busReady = false) :
    exec .init s = .next { s with rsp := some ⟨.deviceNotReady, none, none⟩ } := by
  rw [execInit_idle hp, ← raise_idle hp]
  simp [acceptInit, hd, hb]

/-- The channel check of `FETCH` comes before its request (R124). -/
theorem execFetch_unsupported (hd : s.drv = .initialized) (hall : ch ≠ Config.chAll) (hamb : ch ≠ Config.chAmbient) :
    exec (.fetch ch) s = .next { s with rsp := some ⟨.unsupportedChannel, none, none⟩ } := by
  rw [execFetch_idle hp, ← raise_idle hp]
  simp [acceptFetch, fetchSupports, hd, hall, hamb]

/-- `GET` has the one channel `CH_AMBIENT` (R126). -/
theorem execGet_unsupported (hd : s.drv = .initialized) (hamb : ch ≠ Config.chAmbient) :
    exec (.get ch) s = .next { s with rsp := some ⟨.unsupportedChannel, none, none⟩ } := by
  rw [execGet_idle hp, ← raise_idle hp]
  simp [acceptGet, getSupports, hd, hamb]

/-- `GET AMBIENT` changes nothing but the response, which is `to_public(decode(RAW))` (R126). -/
theorem execGet_ambient (hd : s.drv = .initialized) :
    exec (.get Config.chAmbient) s = .next { s with
      rsp := some ⟨.ok, some (tc32 (intPart (decodeRaw s.raw))), some (tc32 (fracMillionths (decodeRaw s.raw)))⟩ } := by
  rw [execGet_idle hp, ← respond_idle hp]
  simp [acceptGet, getSupports, hd, State.respondPublic, State.respondOk]

end Acceptance

/-! ### The statements -/

/-- Settles O32: acceptance refuses, checks the channel or issues the read; the answer completes it. -/
theorem fetchStoresTheRawValue : Obligations.FetchStoresTheRawValue := by
  refine fun ch s => ⟨execFetch_refused, execFetch_unsupported,
    fun hp hd hc => (execFetch_idle hp ch).trans (acceptFetch_supported hd hc),
    fun q past b0 b1 e hp hh ha => ?_, fun q past b0 b1 e hp hh ha => ?_⟩
  all_goals rw [exec, execFetch, busCommand_answered (i := .fetch ch) hp ha]
  · exact congrArg Host.Outcome.next (onReadAnswer_ok hh _ _ b0 b1 e)
  · exact congrArg Host.Outcome.next (onReadAnswer_fail hh _ _ b0 b1 e)

/-- Settles O33: the pair of the ambient channel is `to_public(decode(RAW))`, and the reset value of `RAW` decodes to 0. -/
theorem getAnswersTheDecodedTemperature : Obligations.GetAnswersTheDecodedTemperature := by
  refine ⟨fun _ _ => execGet_refused, fun s hp hd =>
    ⟨fun _ => execGet_unsupported hp hd, execGet_ambient hp hd, fun hraw => ?_⟩⟩
  have hzero : decodeRaw 0x0000 = 0 := rfl
  refine (execGet_ambient hp hd).trans ?_
  rw [hraw, hzero]
  rfl

/-- Settles O34: a command that is not admitted is refused by name, and one that is answers a next state. -/
theorem admissionByDriverState : Obligations.AdmissionByDriverState := by
  intro s hp
  have hnext {d : Drv} (i : Instr) (hd : s.drv = d) (ha : admitted i d = true) : ∃ t, exec i s = .next t :=
    exec_admitted_next hp (hd ▸ ha)
  exact ⟨execInit_refused hp, fun hd _ => ⟨execFetch_refused hp hd, execGet_refused hp hd⟩,
    fun hd => hnext .init hd rfl, fun hd ch => ⟨hnext (.fetch ch) hd rfl, hnext (.get ch) hd rfl⟩,
    fun reg val val16 => ⟨hnext (.rd16 reg) rfl rfl, hnext (.wr8 reg val) rfl rfl, hnext (.wr16 reg val16) rfl rfl⟩,
    fun d => ⟨hnext (.dec d) rfl rfl, hnext (.enc d) rfl rfl, hnext (.topub d) rfl rfl⟩⟩

/-- Settles O31: acceptance checks readiness, refuses or issues the write; the answer completes it. -/
theorem initWritesTheResolution : Obligations.InitWritesTheResolution := by
  refine fun s => ⟨execInit_notReady, execInit_refused,
    fun hp hd hb => (execInit_idle hp).trans (acceptInit_ready hd hb),
    fun q past b0 b1 e hp hh ha => ?_, fun q past b0 b1 e hp hh ha => ?_⟩
  all_goals rw [exec, execInit, busCommand_answered (i := .init) hp ha]
  · exact congrArg Host.Outcome.next (onWriteAnswer_ok hh _ _ b0 b1 e)
  · exact congrArg Host.Outcome.next (onWriteAnswer_fail hh _ _ b0 b1 e)

end Sys2Proof.Machine
end

section
/-! PROOFS, a request without an answer and a command that fails (O15, O41). -/
namespace Sys2Proof.Machine

/-! ### A request that is never answered -/

/-- The slot driven next is a listed one or a quiet one (log 2), so it is free of reset and answer if the listed slots are. -/
theorem nextSlot_silent {ps : List Inputs} (h : ∀ p ∈ ps, p.rst = false ∧ p.answer = none) :
    (nextSlot ps).rst = false ∧ (nextSlot ps).answer = none := by
  cases ps with
  | nil => exact ⟨rfl, rfl⟩
  | cons p ps => exact h p List.mem_cons_self

/-- In `WAIT(c)` with no reset and no answer listed a step only samples the ports (R160). -/
theorem step_silent {s : State} {c : Word} {i : Instr} (hp : s.phase = .wait c) (hd : decode c = .command i)
    (h : ∀ p ∈ s.inputs, p.rst = false ∧ p.answer = none) : step s = .next s.sample := by
  obtain ⟨hr, ha⟩ := nextSlot_silent h
  rw [step_wait hp hr, runWord_command hd]
  exact exec_unanswered (s := s.sample) hp ha

/-- Settles O15: a reset slot leaves the reset state; and, by induction on the number of slots, each slot without an answer
leaves the block as sampled, in the same hang with the slots still to come. -/
theorem unansweredRequestHangs : Obligations.UnansweredRequestHangs := by
  refine ⟨fun s c _ hr => ⟨_, step_rst hr, rfl, rfl⟩, fun s c i hp hd h n => ?_⟩
  induction n generalizing s with
  | zero => exact ⟨_, run_succ (step_silent hp hd h) 0, hp, by simp [State.cmdReady, hp], rfl, rfl, rfl, rfl, rfl⟩
  | succ n ih =>
    have htail : ∀ p ∈ s.sample.inputs, p.rst = false ∧ p.answer = none := fun p hm => h p (List.mem_of_mem_tail hm)
    rw [run_succ (step_silent hp hd h)]
    exact ih s.sample hp htail

/-! ### A command that fails -/

/-- Of the errors only `TRANSPORT_ERROR` has a valid field, and that is `R0` (R69). -/
theorem responseFields_of_error {i : Instr} {st : Status} {f0 f1 : Bool} (h : responseFields i st = some (f0, f1))
    (herr : st ≠ .ok) : (f0 = true ↔ st = .transportError) ∧ f1 = false := by
  unfold responseFields at h
  split at h <;> simp_all

/-- Only a failed transaction completes a command with an error (R122, R125, R145). -/
theorem Completion.okf_of_error {i : Instr} {a : BusAnswer} {b : BusResult} {r : Response} (h : Completion i a b r)
    (herr : r.status ≠ .ok) : a.okf = false := by
  cases h with
  | read _ _ _ hs => exact absurd hs herr
  | written _ _ _ hs => exact absurd hs herr
  | failed _ hok => exact hok

/-- A failed transaction leaves `DRV` and `RAW` (R122, R125). -/
theorem completed_of_failed {i : Instr} {a : BusAnswer} {b : BusResult} {r : Response} {s : State} (h : a.okf = false) :
    completed i a b r s = { s with phase := .idle, hist := answerLast b s.hist, rsp := some r } := by
  simp [completed, h]

/-- A command that answers an error, run where no response stood, gives `R0` for `TRANSPORT_ERROR` only, and never `R1` (R69). -/
theorem exec_error_fields {i : Instr} {s t : State} {r : Response} (hs : s.rsp = none) (he : exec i s = .next t)
    (hr : t.rsp = some r) (herr : r.status ≠ .ok) :
    (r.r0.isSome = true ↔ r.status = .transportError) ∧ r.r1 = none := by
  obtain ⟨hr0, hr1⟩ := responseFields_of_error (responseFieldsByCommandAndStatus i s t r hs he hr) herr
  exact ⟨hr0, by simpa using hr1⟩

/-- A command that answers an error, run where no response stood, leaves the block idle and `DRV`, `RAW`, the request port
and the requests of `HIST` as they were (R146). -/
theorem exec_error_frame {i : Instr} {s t : State} {r : Response} (hs : s.rsp = none) (he : exec i s = .next t)
    (hr : t.rsp = some r) (herr : r.status ≠ .ok) :
    t.phase = .idle ∧ t.drv = s.drv ∧ t.raw = s.raw ∧ t.breq = s.breq ∧
      t.hist.map (·.request) = s.hist.map (·.request) := by
  rcases exec_cases he with he | ⟨a, b, r', -, -, hc, rfl⟩
  · cases he with
    | held => cases hs.symm.trans hr
    | responds _ hp => exact ⟨hp, rfl, rfl, rfl, rfl⟩
    | issues => cases hs.symm.trans hr
  · obtain rfl : r' = r := Option.some.inj hr
    rw [completed_of_failed (hc.okf_of_error herr)]
    exact ⟨rfl, rfl, rfl, rfl, answerLast_requests b s.hist⟩

/-- Settles O41: a reset or an empty slot answers nothing, and a command that answers an error has the frame and the fields
of one. -/
theorem errorsChangeNothing : Obligations.ErrorsChangeNothing := by
  intro s t r hst hr herr
  rcases step_cases hst with ⟨-, rfl⟩ | ⟨-, -, -, rfl⟩ | ⟨-, cw, i, -, -, he⟩
  · cases hr
  · cases hr
  · obtain ⟨hphase, hdrv, hraw, hbreq, hreqs⟩ := exec_error_frame (sample_rsp s) he hr herr
    exact ⟨hphase, hdrv, hraw, hbreq, hreqs, exec_error_fields (sample_rsp s) he hr herr⟩

end Sys2Proof.Machine
end

section
/-! PROOFS, reset and an answer that nobody waits for (O10, O13). -/
namespace Sys2Proof.Machine

/-- The state without the sampled answer port. -/
def hideAnswer (t : State) : State := { t with pin := { t.pin with answer := none } }

theorem hideAnswer_view : View hideAnswer where
  issue _ _ := .of_hidden_first fun _ => rfl
  record _ := .of_hidden_first fun _ => rfl
  respondOk _ _ := .of_hidden_first fun _ => rfl
  raise _ _ := .of_hidden_first fun _ => rfl
  setDrv _ := .of_hidden_first fun _ => rfl
  setRaw _ := .of_hidden_first fun _ => rfl
  reset := .of_hidden_first fun _ => rfl

/-- Settles O13: a command reads the answer port only in `WAIT`, and the block is in `IDLE`. -/
theorem strayAnswerIsIgnored : Obligations.StrayAnswerIsIgnored := by
  intro s p ps a hp
  exact step_congr hideAnswer_view rfl rfl rfl fun _ _ _ _ =>
    { phase := rfl, drv := rfl, decoded := rfl, answer := fun hwait => absurd hp hwait, ready := fun _ _ => rfl }

/-- While `rst = 1` stands on the port, the block takes no command (R170). -/
theorem cmdReady_of_rst {s : State} (h : s.pin.rst = true) : s.cmdReady = false := by
  simp [State.cmdReady, h]

/-- Settles O10: the step is the reset state at the sampled ports, and `rst` still stands on them. -/
theorem resetFromEveryState : Obligations.ResetFromEveryState :=
  fun _ hrst => ⟨_, step_rst hrst, rfl, cmdReady_of_rst hrst, rfl, rfl⟩

end Sys2Proof.Machine
end
